-- ==== Sys2Proof/Word.lean ====
section
/-! DEFINITION. The three data widths of 20_memory.md R56: the byte, the 64-bit word and the 512-bit value. -/

namespace Sys2Proof

/-- A byte (R56): absorber input, padding, digest. -/
abbrev Byte := BitVec 8

/-- A 64-bit word (R56): a register slot, one column of the byte matrix (R11). -/
abbrev Word := BitVec 64

/-- A 512-bit value: eight words, word `j` being column `j` of the 8×8 byte matrix (R11). -/
abbrev Wide := Vector Word 8

end Sys2Proof
end

