-- ==== Sys2Proof/Syntax.lean ====
section
/-! DEFINITION. The commands of the engine, one constructor per row of spec/opcode_table.json (30_encoding.md R74). -/

namespace Sys2Proof

/-- A command (R74). -/
inductive Instr where
  /-- NOP (R200). -/
  | nop
  /-- INIT (R201). -/
  | init
  /-- PERMP (R120). -/
  | permp
  /-- PERMQ (R121). -/
  | permq
  /-- COMPRESS (R142). -/
  | compress
  /-- ABSORB n (R162); `len` is the unsigned 7-bit field LEN (R72). -/
  | absorb (len : BitVec 7)
  /-- FINAL (R183). -/
  | final
deriving DecidableEq, Repr

end Sys2Proof
end

