-- ==== Sys2Proof/WellFormed.lean ====
section
/-! DEFINITION. Which command terms have an encoding the decoder accepts (30_encoding.md R72). -/

namespace Sys2Proof

/-- The legal values of LEN are 0 to 64 (R72); no other command has an operand. -/
def Instr.wf : Instr → Bool
  | .absorb len => decide (len.toNat ≤ 64)
  | .nop | .init | .permp | .permq | .compress | .final => true

end Sys2Proof
end

