-- ==== Sys2Proof/Decode.lean ====
section
/-! DEFINITION. The command word: its fields, the decoder and the encoder (30_encoding.md R70 to R78). -/

namespace Sys2Proof

/-- The causes of a rejected command (60_exceptions.md R221). Codes 0 and 4 to 15 are no cause of any command. -/
inductive Cause where
  /-- 1, ILLEGAL_OPCODE. -/
  | illegalOpcode
  /-- 2, RESERVED_FIELD. -/
  | reservedField
  /-- 3, INPUT_AFTER_FINAL. -/
  | inputAfterFinal
deriving DecidableEq, Repr

/-- The code ECAUSE holds for a cause (R221). -/
def Cause.code : Cause → BitVec 4
  | .illegalOpcode => 1
  | .reservedField => 2
  | .inputAfterFinal => 3

/-- The result of decoding: a command, or the cause that rejects the word (R75). -/
inductive Decoded where
  | cmd (i : Instr)
  | illegal (c : Cause)
deriving DecidableEq, Repr

/-- OPC, bits 7:0 (R70). -/
def opcField (v : Word) : Byte := v.extractLsb' 0 8

/-- RZ1, bits 15:8 (R70). -/
def rz1Field (v : Word) : BitVec 8 := v.extractLsb' 8 8

/-- LEN, bits 22:16 (R70, R72). -/
def lenField (v : Word) : BitVec 7 := v.extractLsb' 16 7

/-- RZ2, bits 63:23 (R70). -/
def rz2Field (v : Word) : BitVec 41 := v.extractLsb' 23 41

/-- The opcode map (R74): the command an OPC names, with its LEN operand; none for the 249 other values. -/
def commandOf (opc : Byte) (len : BitVec 7) : Option Instr :=
  if opc = 0x00 then some .nop
  else if opc = 0x01 then some .init
  else if opc = 0x10 then some .permp
  else if opc = 0x11 then some .permq
  else if opc = 0x20 then some .compress
  else if opc = 0x30 then some (.absorb len)
  else if opc = 0x40 then some .final
  else none

/-- Decoding (R75): total, on the word alone, an illegal opcode reported before a reserved field. -/
def decode (v : Word) : Decoded :=
  match commandOf (opcField v) (lenField v) with
  | none => .illegal .illegalOpcode
  | some i =>
    if rz1Field v ≠ 0 ∨ rz2Field v ≠ 0 then .illegal .reservedField
    else if opcField v = 0x30 ∧ 64 < (lenField v).toNat then .illegal .reservedField
    else if opcField v ≠ 0x30 ∧ lenField v ≠ 0 then .illegal .reservedField
    else .cmd i

/-- The OPC of a command (R74). -/
def Instr.opcode : Instr → Byte
  | .nop => 0x00
  | .init => 0x01
  | .permp => 0x10
  | .permq => 0x11
  | .compress => 0x20
  | .absorb _ => 0x30
  | .final => 0x40

/-- The LEN field of a command (R72): zero but for ABSORB. -/
def Instr.lenOperand : Instr → BitVec 7
  | .absorb len => len
  | .nop | .init | .permp | .permq | .compress | .final => 0

/-- The command word (R70, R74): RZ2 = 0, LEN, RZ1 = 0, OPC, the first in the most significant bits. -/
def encode (i : Instr) : Word := (0 : BitVec 41) ++ i.lenOperand ++ (0 : BitVec 8) ++ i.opcode

/-- The command the decoder reads from a word of `nbits` bits numbered as spec/opcode_table.json numbers them.
Every command is one 64-bit word (R78), so a number that does not fit in 64 bits is no command (log entry 13). -/
def decodeTableWord (nbits w : Nat) : Option Instr :=
  if w % 2 ^ nbits < 2 ^ 64 then
    match decode (BitVec.ofNat 64 (w % 2 ^ nbits)) with
    | .cmd i => some i
    | .illegal _ => none
  else none

end Sys2Proof
end

