-- ==== Sys2Proof/Config.lean ====
section
/-! DEFINITION. The parameters of 00_scope.md R8 and the values the spec leaves open (R9, R34). -/

namespace Sys2Proof.Config

/-- ROUNDS (R8): both permutations have ten rounds. -/
def rounds : Nat := 10

/-- PAD_THRESHOLD (R8, R180): a tail shorter than this takes one padding block. -/
def padThreshold : Nat := 56

/-- IV (R8, R23, 90_conflicts.md C1): the digest size in bits, 256, in word 7; every other word zero. -/
def iv : Wide := #v[0, 0, 0, 0, 0, 0, 0, 0x0000000000000100]

/-- M_RESET (R9, R34, R252): `mReset n j` is word `j` of the draw that the block register takes at reset number `n`.
A free value: nothing constrains it (log entry 4). -/
opaque mReset : Nat → Nat → Word

/-- The unspecified contents of BUF after a reset (R25, R34): `bufReset n k` is byte `k` at reset number `n`.
A free value: nothing constrains it (log entry 5). -/
opaque bufReset : Nat → Nat → Byte

end Sys2Proof.Config
end

