-- ==== Sys2Proof/Machine/Bytes.lean ====
section
/-! DEFINITION. Bytes of words, 512-bit values and their serialization (00_scope.md R10 to R12). -/

namespace Sys2Proof.Machine

/-- `byte(w, i)` (R11): row `i` of the column word `w`, bits 63−8i to 56−8i, row 0 the most significant. -/
def byteOf (w : Word) (i : Fin 8) : Byte := w.extractLsb' (56 - 8 * i.val) 8

/-- `word(c0, …, c7)` (R11): the column word whose row `i` is `c i`. -/
def wordOf (c : Fin 8 → Byte) : Word := c 0 ++ c 1 ++ c 2 ++ c 3 ++ c 4 ++ c 5 ++ c 6 ++ c 7

/-- The matrix entry `a[i][j]`, row `i` and column `j` (R11). -/
def entry (A : Wide) (i j : Fin 8) : Byte := byteOf A[j] i

/-- `⊕` on 512-bit values, word by word (R140). -/
def xorWide (X Y : Wide) : Wide := Vector.ofFn fun j : Fin 8 => X[j] ^^^ Y[j]

/-- `rotr64(w, n)` (R10). -/
def rotr64 (w : Word) (n : Nat) : Word := if n = 0 then w else (w >>> n) ||| (w <<< (64 - n))

/-- `ser(A)` (R12): byte `8j + i` is row `i` of column `j`. -/
def ser (A : Wide) : Vector Byte 64 :=
  Vector.ofFn fun k : Fin 64 => byteOf A[k.val / 8] ⟨k.val % 8, Nat.mod_lt _ (by decide)⟩

/-- `deser(b)` (R12): column `j` is `word(b[8j], …, b[8j+7])`. -/
def deser (b : Vector Byte 64) : Wide :=
  Vector.ofFn fun j : Fin 8 => wordOf fun i => b[8 * j.val + i.val]

/-- `BE64(v)` (R12): the eight bytes of a word, most significant first. -/
def be64 (v : Word) : List Byte := (List.finRange 8).map (byteOf v)

end Sys2Proof.Machine
end

