-- ==== Sys2Proof/Machine/State.lean ====
section
/-! DEFINITION. The state of one engine instance (10_state.md), the host events it takes, and why a step can stop. -/

namespace Sys2Proof.Machine

/-- What the outside world does to an instance. `offset` is the bus address less BASE (20_memory.md R50, log entry 7),
so that no placement of the window is fixed; `size` is in bytes. -/
inductive HostEvent where
  /-- A bus read (R51, R53). -/
  | read (offset : Int) (size : Nat)
  /-- A bus write of `value` (R51, R54). -/
  | write (offset : Int) (size : Nat) (value : Word)
  /-- Hardware reset, taken between commands (70_reset_and_hazards.md R250). -/
  | reset
  /-- An access by a second host, to which R58 gives no meaning (log entry 9). -/
  | secondHost
  /-- A reset that lands inside a command, which R250 leaves out (log entry 9). -/
  | resetInsideCommand
deriving DecidableEq, Repr

/-- One engine instance. -/
structure State where
  /-- H, the chaining state (R21). -/
  h : Wide
  /-- M, the block register (R24). -/
  m : Wide
  /-- BUF, the hidden absorber buffer (R25). -/
  buf : Vector Byte 64
  /-- OFF, the number of tail bytes in BUF, 0 to 63 (R26, R35). -/
  off : Fin 64
  /-- CNT, the block counter (R27). -/
  cnt : Word
  /-- FIN (R28). -/
  fin : Bool
  /-- ERR (R29). -/
  err : Bool
  /-- ECAUSE (R30). -/
  ecause : BitVec 4
  /-- The model's own: host events not yet taken, oldest first (log entry 1). -/
  pending : List HostEvent
  /-- The model's own: the values reads have returned, oldest first (log entry 3). -/
  replies : List Word
  /-- The model's own: how many resets there have been, which numbers the next free values M_RESET and BUF
  take at a reset (log entry 4). -/
  draws : Nat
deriving DecidableEq, Repr

/-- Why the machine stops with a fault. -/
inductive Fault where
  /-- Raised by a bus access that touches no byte of the window: no address outside BASE to BASE + 0xFF belongs to
  the engine (20_memory.md R50). Safe: the model stops (log entry 8). -/
  | outsideWindow
deriving DecidableEq, Repr

/-- Why a step has no meaning. -/
inductive Refusal where
  /-- Raised by the dispatch for an instruction without a meaning. No arm of this model raises it. Safe. -/
  | notModelled (mnemonic : String)
  /-- Raised by a bus access that touches the window and is not an aligned 8-byte access inside it (20_memory.md R51:
  "is refused: the model has no step for it and the host is stuck"). Safe. -/
  | unmodelledAccess
  /-- Raised by an access of a second host (20_memory.md R58: "that case is refused"). Safe. -/
  | secondHost
  /-- Raised by a reset inside a command (70_reset_and_hazards.md R250: "outside the model"). Safe: the model stops. -/
  | resetInsideCommand
deriving DecidableEq, Repr

/-- M right after reset number `n`: the draw M_RESET (R34). -/
def drawnM (n : Nat) : Wide := Vector.ofFn fun j : Fin 8 => Config.mReset n j.val

/-- BUF right after reset number `n`: unspecified (R34). -/
def drawnBuf (n : Nat) : Vector Byte 64 := Vector.ofFn fun k : Fin 64 => Config.bufReset n k.val

/-- The machine right after reset (R34, R250); no host event pending, no reply given, reset number 0 just taken. -/
def State.reset : State where
  h := Config.iv
  m := drawnM 0
  buf := drawnBuf 0
  off := 0
  cnt := 0
  fin := false
  err := false
  ecause := 0
  pending := []
  replies := []
  draws := 1

end Sys2Proof.Machine
end

