-- ==== Sys2Proof/Machine/Operands.lean ====
section
/-! DEFINITION. The operands of commands and of accesses: bytes of the block register, slots of the window
(10_state.md R24, 20_memory.md R50, R51). -/

namespace Sys2Proof.Machine

/-- `Mbyte(k) = byte(M[k >> 3], k & 7)` (R24). -/
def mbyte (s : State) (k : Fin 64) : Byte := byteOf s.m[k.val / 8] ⟨k.val % 8, Nat.mod_lt _ (by decide)⟩

/-- The operand of ABSORB n: `Mbyte(0), …, Mbyte(n−1)` (R72, R162); LEN is not scaled or extended. -/
def absorbOperand (s : State) (n : BitVec 7) : List Byte := ((List.finRange 64).take n.toNat).map (mbyte s)

/-- The tail: the meaningful bytes `BUF[0..OFF−1]` (R16, R25). -/
def tailBytes (s : State) : List Byte := s.buf.toList.take s.off.val

/-- What a slot of the window holds (R50). -/
inductive Slot where
  | cmd
  | status
  | cnt
  | h (j : Fin 8)
  | m (j : Fin 8)
  | reserved
deriving DecidableEq, Repr

/-- The map of R50: slot `k` covers offsets 8k to 8k + 7. -/
def slotOf (k : Fin 32) : Slot :=
  if k.val = 0 then .cmd
  else if k.val = 1 then .status
  else if k.val = 2 then .cnt
  else if h : 8 ≤ k.val ∧ k.val < 16 then .h ⟨k.val - 8, by omega⟩
  else if h : 16 ≤ k.val ∧ k.val < 24 then .m ⟨k.val - 16, by omega⟩
  else .reserved

/-- Where an access lands (R50, R51). -/
inductive Target where
  /-- An aligned 8-byte access of slot `k`. -/
  | slot (k : Fin 32)
  /-- It touches the window and R51 refuses it. -/
  | unmodelled
  /-- It touches no byte of the window. -/
  | outside
deriving DecidableEq, Repr

/-- Locate an access of `size` bytes at `offset` from BASE; the window has 256 bytes (R50, R51; log entry 8). -/
def locate (offset : Int) (size : Nat) : Target :=
  if h : size = 8 ∧ 0 ≤ offset ∧ offset < 256 ∧ offset % 8 = 0 then .slot ⟨(offset / 8).toNat, by omega⟩
  else if offset + size ≤ 0 ∨ 256 ≤ offset then .outside
  else .unmodelled

/-- A bus access by its absolute address (00_scope.md R13: `MemRead`, `MemWrite`). -/
inductive BusAccess where
  | memRead (addr size : Nat)
  | memWrite (addr size : Nat) (value : Word)
deriving DecidableEq, Repr

/-- The host event a bus access is for an engine whose window stands at BASE = `base` (R9, R50). -/
def busEvent (base : Nat) : BusAccess → HostEvent
  | .memRead addr size => .read ((addr : Int) - base) size
  | .memWrite addr size value => .write ((addr : Int) - base) size value

end Sys2Proof.Machine
end

