-- ==== Sys2Proof/Machine/Flags.lean ====
section
/-! DEFINITION. FIN, ERR, ECAUSE and the STATUS register (10_state.md R28 to R30, 20_memory.md R52,
60_exceptions.md R222). -/

namespace Sys2Proof.Machine

/-- STATUS (R52): `zext_64(OFF[5:0] ‖ ECAUSE[3:0] ‖ 0b00 ‖ ERR ‖ FIN)`. -/
def statusWord (s : State) : Word :=
  (BitVec.ofNat 6 s.off.val ++ s.ecause ++ (0 : BitVec 2) ++ BitVec.ofBool s.err ++ BitVec.ofBool s.fin).setWidth 64

/-- Recording an error (R222): the first cause since INIT or reset is kept. -/
def recordError (c : Cause) (s : State) : State :=
  if s.err then s else { s with err := true, ecause := c.code }

/-- The flags INIT writes (R201): FIN, ERR and ECAUSE cleared. -/
def clearFlags (s : State) : State := { s with fin := false, err := false, ecause := 0 }

/-- The flag FINAL writes (R183). -/
def setFin (s : State) : State := { s with fin := true }

end Sys2Proof.Machine
end

