-- ==== Sys2Proof/Machine/Field.lean ====
section
/-! DEFINITION. Arithmetic of GF(2^8) and the S-box (40_permutation.md R106, R108). -/

namespace Sys2Proof.Machine

/-- One shift of the multiplicand in R108: `a << 1` as a 9-bit intermediate, reduced by 0x11B when bit 8 is set. -/
def gfDouble (a : Byte) : Byte :=
  let a9 : BitVec 9 := a.setWidth 9 <<< 1
  (if a9.getLsbD 8 then a9 ^^^ 0x11B#9 else a9).setWidth 8

/-- The loop of `gmul` (R108), `k` iterations to go, product so far `p`. -/
def gmulLoop : Nat → Byte → Byte → Byte → Byte
  | 0, p, _, _ => p
  | k + 1, p, a, b => gmulLoop k (if b.getLsbD 0 then p ^^^ a else p) (gfDouble a) (b >>> 1)

/-- `a • b`, the product in GF(2^8) modulo 0x11B (R14, R108). -/
def gmul (a b : Byte) : Byte := gmulLoop 8 0 a b

/-- The rows of the S-box table (R106): row `hi` lists its sixteen entries, column 0 in the most significant byte.
General knowledge in the spec itself (log entry 16). -/
def sboxRows : List Nat :=
  [0x637c777bf26b6fc53001672bfed7ab76, 0xca82c97dfa5947f0add4a2af9ca472c0,
   0xb7fd9326363ff7cc34a5e5f171d83115, 0x04c723c31896059a071280e2eb27b275,
   0x09832c1a1b6e5aa0523bd6b329e32f84, 0x53d100ed20fcb15b6acbbe394a4c58cf,
   0xd0efaafb434d338545f9027f503c9fa8, 0x51a3408f929d38f5bcb6da2110fff3d2] ++
  [0xcd0c13ec5f974417c4a77e3d645d1973, 0x60814fdc222a908846eeb814de5e0bdb,
   0xe0323a0a4906245cc2d3ac629195e479, 0xe7c8376d8dd54ea96c56f4ea657aae08,
   0xba78252e1ca6b4c6e8dd741f4bbd8b8a, 0x703eb5664803f60e613557b986c11d9e,
   0xe1f8981169d98e949b1e87e9ce5528df, 0x8ca1890dbfe6426841992d0fb054bb16]

/-- SBOX (R106): the entry for `x` is in row `x >> 4` and column `x & 0xF`. -/
def sbox (x : Byte) : Byte :=
  BitVec.ofNat 8 ((sboxRows.getD (x.toNat / 16) 0) >>> (8 * (15 - x.toNat % 16)))

/-- The inverse in GF(2^8) as the power 254, with the inverse of 0 being 0 (R106). -/
def gfInverse (x : Byte) : Byte :=
  let x2 := gmul x x
  let x4 := gmul x2 x2
  let x8 := gmul x4 x4
  let x16 := gmul x8 x8
  let x32 := gmul x16 x16
  let x64 := gmul x32 x32
  let x128 := gmul x64 x64
  gmul (gmul (gmul (gmul (gmul (gmul x2 x4) x8) x16) x32) x64) x128

/-- The algebraic definition of the S-box (R106): the affine map of the inverse. -/
def sboxAlgebraic (x : Byte) : Byte :=
  let b := gfInverse x
  b ^^^ b.rotateLeft 1 ^^^ b.rotateLeft 2 ^^^ b.rotateLeft 3 ^^^ b.rotateLeft 4 ^^^ 0x63

end Sys2Proof.Machine
end

