-- ==== Sys2Proof/Machine/Rounds.lean ====
section
/-! DEFINITION. The permutations P and Q (40_permutation.md R100 to R112) as pure functions. -/

namespace Sys2Proof.Machine

/-- The selector of the permutation (R16, R100). -/
inductive Variant where
  | P
  | Q
deriving DecidableEq, Repr

/-- The column and round value `(j << 4) ⊕ r` of R103 and R104, as a byte. -/
def columnRound (r : Nat) (j : Fin 8) : Byte := (BitVec.ofNat 8 j.val <<< 4) ^^^ BitVec.ofNat 8 r

/-- The round constant of column `j` in round `r`: row 0 for P (R103); row 7 with every byte complemented for Q
(R104, 90_conflicts.md C2, log entry 16). -/
def roundConstant (v : Variant) (r : Nat) (j : Fin 8) : Word :=
  match v with
  | .P => (columnRound r j).setWidth 64 <<< 56
  | .Q => 0xFFFFFFFFFFFFFFFF#64 ^^^ (columnRound r j).setWidth 64

/-- AddRoundConstant (R103, R104). -/
def addRoundConstant (v : Variant) (r : Nat) (X : Wide) : Wide :=
  Vector.ofFn fun j : Fin 8 => X[j] ^^^ roundConstant v r j

/-- SubBytes (R105). -/
def subBytes (X : Wide) : Wide :=
  Vector.ofFn fun j : Fin 8 => wordOf fun i => sbox (byteOf X[j] i)

/-- The shift vectors (R107): how far row `i` turns left. -/
def sigma : Variant → Vector (Fin 8) 8
  | .P => #v[0, 1, 2, 3, 4, 5, 6, 7]
  | .Q => #v[1, 3, 5, 7, 0, 2, 4, 6]

/-- ShiftBytes (R107): output column `d` takes its row `i` from column `(d + σ_v[i]) mod 8`. -/
def shiftBytes (v : Variant) (X : Wide) : Wide :=
  Vector.ofFn fun d : Fin 8 => wordOf fun i => byteOf X[d + (sigma v)[i]] i

/-- `bc`, the first row of the MixBytes matrix (R109, log entry 16). -/
def mixRow : Vector Byte 8 := #v[0x02, 0x02, 0x03, 0x04, 0x05, 0x03, 0x05, 0x07]

/-- `B[i][k] = bc[(k − i) mod 8]` (R109). -/
def mixMatrix (i k : Fin 8) : Byte := mixRow[k - i]

/-- `⊕_{k=0..7} f k` (R109). -/
def xorSum (f : Fin 8 → Byte) : Byte := f 0 ^^^ f 1 ^^^ f 2 ^^^ f 3 ^^^ f 4 ^^^ f 5 ^^^ f 6 ^^^ f 7

/-- The product of the MixBytes matrix and one column (R109). -/
def mixColumn (w : Word) : Word :=
  wordOf fun i => xorSum fun k => gmul (mixMatrix i k) (byteOf w k)

/-- MixBytes (R109). -/
def mixBytes (X : Wide) : Wide := Vector.ofFn fun j : Fin 8 => mixColumn X[j]

/-- One round (R102): AddRoundConstant, SubBytes, ShiftBytes, MixBytes. -/
def permRound (v : Variant) (r : Nat) (X : Wide) : Wide :=
  mixBytes (shiftBytes v (subBytes (addRoundConstant v r X)))

/-- `π_v` (R101): rounds 0 to 9, round 0 first. -/
def perm (v : Variant) (A : Wide) : Wide := (List.range Config.rounds).foldl (fun X r => permRound v r X) A

end Sys2Proof.Machine
end

