-- ==== Sys2Proof/Machine/FusedTables.lean ====
section
/-! DEFINITION. The fused table form of a round (40_permutation.md R110, R113): the handier version of
MixBytes, ShiftBytes and SubBytes, equal to the normative composition of R102. -/

namespace Sys2Proof.Machine

/-- `T0[x]` (R110): column 0 of the MixBytes matrix times `SBOX[x]`. -/
def t0 (x : Byte) : Word :=
  let s := sbox x
  wordOf fun i => gmul ((#v[0x02, 0x07, 0x05, 0x03, 0x05, 0x04, 0x03, 0x02] : Vector Byte 8)[i]) s

/-- `T4[x] = rotr64(T0[x], 32)` (R110). -/
def t4 (x : Byte) : Word := rotr64 (t0 x) 32

/-- The byte that output column `d` takes from row `i` under ShiftBytes (R107, R110). -/
def shiftedByte (v : Variant) (X : Wide) (d i : Fin 8) : Byte := byteOf X[d + (sigma v)[i]] i

/-- Output column `d` in the fused form (R110): T0 for rows 0 to 3, T4 for rows 4 to 7, rotated right by 0, 8, 16, 24. -/
def fusedColumn (v : Variant) (X : Wide) (d : Fin 8) : Word :=
  rotr64 (t0 (shiftedByte v X d 0)) 0 ^^^ rotr64 (t0 (shiftedByte v X d 1)) 8 ^^^
  rotr64 (t0 (shiftedByte v X d 2)) 16 ^^^ rotr64 (t0 (shiftedByte v X d 3)) 24 ^^^
  rotr64 (t4 (shiftedByte v X d 4)) 0 ^^^ rotr64 (t4 (shiftedByte v X d 5)) 8 ^^^
  rotr64 (t4 (shiftedByte v X d 6)) 16 ^^^ rotr64 (t4 (shiftedByte v X d 7)) 24

/-- The fused step of R110 on a whole value. -/
def fusedStep (v : Variant) (X : Wide) : Wide := Vector.ofFn (fusedColumn v X)

/-- A round with the fused step (R102, R110). -/
def fusedRound (v : Variant) (r : Nat) (X : Wide) : Wide := fusedStep v (addRoundConstant v r X)

/-- `π_v` by the fused rounds (R101, R110). -/
def fusedPerm (v : Variant) (A : Wide) : Wide :=
  (List.range Config.rounds).foldl (fun X r => fusedRound v r X) A

/-- The rows of the T0 table as R113 prints them, four entries a row, the first in the most significant word. -/
def t0Rows : List Nat :=
  [0xc632f4a5f497a5c6f86f978497eb84f8ee5eb099b0c799eef67a8c8d8cf78df6,
   0xffe8170d17e50dffd60adcbddcb7bdd6de16c8b1c8a7b1de916dfc54fc395491,
   0x6090f050f0c050600207050305040302ce2ee0a9e087a9ce56d1877d87ac7d56,
   0xe7cc2b192bd519e7b513a662a67162b54d7c31e6319ae64dec59b59ab5c39aec,
   0x8f40cf45cf05458f1fa3bc9dbc3e9d1f8949c040c0094089fa68928792ef87fa,
   0xefd03f153fc515efb29426eb267febb28ece40c94007c98efbe61d0b1ded0bfb,
   0x416e2fec2f82ec41b31aa967a97d67b35f431cfd1cbefd5f456025ea258aea45,
   0x23f9dabfda46bf23535102f702a6f753e445a196a1d396e49b76ed5bed2d5b9b] ++
  [0x75285dc25deac275e1c5241c24d91ce13dd4e9aee97aae3d4cf2be6abe986a4c,
   0x6c82ee5aeed85a6c7ebdc341c3fc417ef5f3060206f102f58352d14fd11d4f83,
   0x688ce45ce4d05c68515607f407a2f451d18d5c345cb934d1f9e1180818e908f9,
   0xe24cae93aedf93e2ab3e9573954d73ab6297f553f5c453622a6b413f41543f2a,
   0x081c140c14100c089563f652f631529546e9af65af8c65469d7fe25ee2215e9d,
   0x304878287860283037cff8a1f86ea1370a1b110f11140f0a2febc4b5c45eb52f,
   0x0e151b091b1c090e247e5a365a4836241badb69bb6369b1bdf98473d47a53ddf,
   0xcda76a266a8126cd4ef5bb69bb9c694e7f334ccd4cfecd7fea50ba9fbacf9fea] ++
  [0x123f2d1b2d241b121da4b99eb93a9e1d58c49c749cb074583446722e72682e34,
   0x3641772d776c2d36dc11cdb2cda3b2dcb49d29ee2973eeb45b4d16fb16b6fb5b,
   0xa4a501f60153f6a476a1d74dd7ec4d76b714a361a37561b77d3449ce49face7d,
   0x52df8d7b8da47b52dd9f423e42a13edd5ecd937193bc715e13b1a297a2269713,
   0xa6a204f50457f5a6b901b868b86968b90000000000000000c1b5742c74992cc1,
   0x40e0a060a0806040e3c2211f21dd1fe3793a43c843f2c879b69a2ced2c77edb6,
   0xd40dd9bed9b3bed48d47ca46ca01468d671770d970ced96772afdd4bdde44b72,
   0x94ed79de7933de9498ff67d4672bd498b09323e8237be8b0855bde4ade114a85] ++
  [0xbb06bd6bbd6d6bbbc5bb7e2a7e912ac54f7b34e5349ee54fedd73a163ac116ed,
   0x86d254c55417c5869af862d7622fd79a6699ff55ffcc556611b6a794a7229411,
   0x8ac04acf4a0fcf8ae9d9301030c910e9040e0a060a080604fe66988198e781fe,
   0xa0ab0bf00b5bf0a078b4cc44ccf0447825f0d5bad54aba254b753ee33e96e34b,
   0xa2ac0ef30e5ff3a25d4419fe19bafe5d80db5bc05b1bc0800580858a850a8a05,
   0x3fd3ecadec7ead3f21fedfbcdf42bc2170a8d848d8e04870f1fd0c040cf904f1,
   0x63197adf7ac6df63772f58c158eec177af309f759f4575af42e7a563a5846342,
   0x2070503050403020e5cb2e1a2ed11ae5fdef120e12e10efdbf08b76db7656dbf] ++
  [0x8155d44cd4194c8118243c143c30141826795f355f4c3526c3b2712f719d2fc3,
   0xbe8638e13867e1be35c8fda2fd6aa23588c74fcc4f0bcc882e654b394b5c392e,
   0x936af957f93d579355580df20daaf255fc619d829de382fc7ab3c947c9f4477a,
   0xc827efacef8bacc8ba8832e7326fe7ba324f7d2b7d642b32e642a495a4d795e6,
   0xc03bfba0fb9ba0c019aab398b33298199ef668d16827d19ea322817f815d7fa3,
   0x44eeaa66aa88664454d6827e82a87e543bdde6abe676ab3b0b959e839e16830b,
   0x8cc945ca4503ca8cc7bc7b297b9529c76b056ed36ed6d36b286c443c44503c28,
   0xa72c8b798b5579a7bc813de23d63e2bc1631271d272c1d16ad379a769a4176ad] ++
  [0xdb964d3b4dad3bdb649efa56fac8566474a6d24ed2e84e741436221e22281e14,
   0x92e476db763fdb920c121e0a1e180a0c48fcb46cb4906c48b88f37e4376be4b8,
   0x9f78e75de7255d9fbd0fb26eb2616ebd43692aef2a86ef43c435f1a6f193a6c4,
   0x39dae3a8e372a83931c6f7a4f762a431d38a593759bd37d3f274868b86ff8bf2,
   0xd583563256b132d58b4ec543c50d438b6e85eb59ebdc596eda18c2b7c2afb7da,
   0x018e8f8c8f028c01b11dac64ac7964b19cf16dd26d23d29c49723be03b92e049,
   0xd81fc7b4c7abb4d8acb915fa1543faacf3fa090709fd07f3cfa06f256f8525cf,
   0xca20eaafea8fafcaf47d898e89f38ef4476720e9208ee9471038281828201810] ++
  [0x6f0b64d564ded56ff073838883fb88f04afbb16fb1946f4a5cca967296b8725c,
   0x38546c246c702438575f08f108aef157732152c752e6c7739764f351f3355197,
   0xcbae6523658d23cba125847c84597ca1e857bf9cbfcb9ce83e5d6321637c213e,
   0x96ea7cdd7c37dd96611e7fdc7fc2dc610d9c9186911a860d0f9b9485941e850f,
   0xe04bab90abdb90e07cbac642c6f8427c712657c457e2c471cc29e5aae583aacc,
   0x90e373d8733bd89006090f050f0c0506f7f4030103f501f71c2a36123638121c,
   0xc23cfea3fe9fa3c26a8be15fe1d45f6aaebe10f91047f9ae69026bd06bd2d069,
   0x17bfa891a82e91179971e858e82958993a5369276974273a27f7d0b9d04eb927] ++
  [0xd991483848a938d9ebde351335cd13eb2be5ceb3ce56b32b2277553355443322,
   0xd204d6bbd6bfbbd2a9399070904970a907878089800e890733c1f2a7f266a733,
   0x2decc1b6c15ab62d3c5a66226678223c15b8ad92ad2a9215c9a96020608920c9,
   0x875cdb49db154987aab01aff1a4fffaa50d8887888a07850a52b8e7a8e517aa5,
   0x03898a8f8a068f03594a13f813b2f85909929b809b1280091a2339173934171a,
   0x651075da75cada65d784533153b531d784d551c65113c684d003d3b8d3bbb8d0,
   0x82dc5ec35e1fc38229e2cbb0cb52b0295ac3997799b4775a1e2d3311333c111e,
   0x7b3d46cb46f6cb7ba8b71ffc1f4bfca86d0c61d661dad66d2c624e3a4e583a2c]

/-- The T0 entry for `x` as R113 prints it: row `x & 0xFC`, column `x & 3`. -/
def t0Listed (x : Byte) : Word :=
  BitVec.ofNat 64 ((t0Rows.getD (x.toNat / 4) 0) >>> (64 * (3 - x.toNat % 4)))

end Sys2Proof.Machine
end

