-- ==== Sys2Proof/Machine/Ops.lean ====
section
/-! DEFINITION. The shared operations: rejecting a command, reset, the compression function, the absorber step,
the padding, the output transform, and reads and writes of the window. -/

namespace Sys2Proof.Machine

/-! Errors: the engine's only exception (60_exceptions.md R220 to R226). There is no entry, vector or saved state, and
the way back is INIT or reset (R226). -/

/-- `raise CmdError(c)` (00_scope.md R13, R220, R222): the command has no effect but on ERR and ECAUSE. -/
def cmdError (c : Cause) (s : State) : Host.Outcome State Fault Refusal := .next (recordError c s)

/-- COMPRESS, ABSORB and FINAL are rejected with cause 3 while FIN = 1 (R221, R256). -/
def unlessFinal (s : State) (effect : State → State) : Host.Outcome State Fault Refusal :=
  if s.fin then cmdError .inputAfterFinal s else .next (effect s)

/-- `check(v)` (R223) in state `s`: the cause that rejects a command word, 1 before 2 before 3; none accepts it. -/
def check (v : Word) (s : State) : Option Cause :=
  match decode v with
  | .illegal c => some c
  | .cmd i =>
    if s.fin ∧ (i.opcode = 0x20 ∨ i.opcode = 0x30 ∨ i.opcode = 0x40) then some .inputAfterFinal else none

/-- The seeded values that INIT and reset both write (R34, 44_control.md R201). -/
def seed (s : State) : State := clearFlags { s with h := Config.iv, cnt := 0, off := 0 }

/-- Hardware reset of a running instance (R34, R250): the seeded values, M and BUF at fresh free values. What the
host has pending and has been told is not the engine's and stays (log entry 10). -/
def hardReset (s : State) : State :=
  { seed s with m := drawnM s.draws, buf := drawnBuf s.draws, draws := s.draws + 1 }

/-! The algorithm over state (41_compression.md, 42_absorber.md, 43_finalizer.md). -/

/-- The compression function `CF(H, B)` (R140). -/
def cf (h b : Wide) : Wide :=
  let g := perm .P (xorWide h b)
  let m := perm .Q b
  xorWide (xorWide h g) m

/-- `AbsorbByte(x)` (R160). -/
def absorbByte (s : State) (x : Byte) : State :=
  let buf := s.buf.set s.off.val x
  if room : s.off.val + 1 < 64 then { s with buf := buf, off := ⟨s.off.val + 1, room⟩ }
  else { s with buf := buf, h := cf s.h (deser buf), cnt := s.cnt + 1, off := 0 }

/-- AbsorbByte on each byte of a string, first byte first (R161). -/
def absorbBytes (bs : List Byte) (s : State) : State := bs.foldl absorbByte s

/-- How many blocks the padding fills for a tail of `l` bytes (R180). -/
def padBlocks (l : Nat) : Nat := if l < Config.padThreshold then 1 else 2

/-- `PAD(L, CNT)` (R180): the stop byte, zero bytes, and the block count after padding modulo 2^64. -/
def pad (l : Nat) (cnt : Word) : List Byte :=
  0x80 :: (List.replicate (64 * padBlocks l - l - 9) 0x00 ++ be64 (cnt + BitVec.ofNat 64 (padBlocks l)))

/-- The output transform `Ω(H) = H ⊕ π_P(H)` (R181). -/
def outputTransform (h : Wide) : Wide := xorWide h (perm .P h)

/-- `TRUNC(H)` (R182): words 4 to 7, the digest. -/
def trunc (h : Wide) : List Byte := be64 h[4] ++ be64 h[5] ++ be64 h[6] ++ be64 h[7]

/-! The window (20_memory.md R52 to R54). -/

/-- What a read of a slot returns (R53). -/
def readSlot (s : State) (k : Fin 32) : Word :=
  match slotOf k with
  | .cmd => 0
  | .status => statusWord s
  | .cnt => s.cnt
  | .h j => s.h[j]
  | .m j => s.m[j]
  | .reserved => 0

/-- `M[j] <- v` (R54). -/
def writeM (s : State) (j : Fin 8) (v : Word) : State := { s with m := s.m.set j.val v }

/-- The reply of a read, which is all a read does (R53). -/
def reply (s : State) (v : Word) : State := { s with replies := s.replies ++ [v] }

end Sys2Proof.Machine
end

