-- ==== Sys2Proof/Machine/Absorber.lean ====
section
/-! DEFINITION. The command ABSORB (42_absorber.md R162). -/

namespace Sys2Proof.Machine

/-- ABSORB n (R162): AbsorbByte on the first n bytes of the block register. Cause 2 when n > 64 (a term that no
word decodes to, log entry 11), before cause 3 when FIN = 1. -/
def execAbsorb (n : BitVec 7) (s : State) : Host.Outcome State Fault Refusal :=
  if 64 < n.toNat then cmdError .reservedField s
  else unlessFinal s fun s => absorbBytes (absorbOperand s n) s

end Sys2Proof.Machine
end

