-- ==== Sys2Proof/Machine/Compression.lean ====
section
/-! DEFINITION. The command COMPRESS (41_compression.md R142). -/

namespace Sys2Proof.Machine

/-- COMPRESS (R142): `H <- CF(H, M)`; it counts no block. Cause 3 when FIN = 1. -/
def execCompress (s : State) : Host.Outcome State Fault Refusal :=
  unlessFinal s fun s => { s with h := cf s.h s.m }

end Sys2Proof.Machine
end

