-- ==== Sys2Proof/Machine/Control.lean ====
section
/-! DEFINITION. The control commands NOP and INIT (44_control.md). -/

namespace Sys2Proof.Machine

/-- NOP (R200): no state changes. -/
def execNop (s : State) : Host.Outcome State Fault Refusal := .next s

/-- INIT (R201): the seeded values; M and BUF stay as they are. Accepted whatever FIN and ERR are. -/
def execInit (s : State) : Host.Outcome State Fault Refusal := .next (seed s)

end Sys2Proof.Machine
end

