-- ==== Sys2Proof/Machine/Finalizer.lean ====
section
/-! DEFINITION. The command FINAL (43_finalizer.md R183). -/

namespace Sys2Proof.Machine

/-- The effect of FINAL (R183): absorb the padding, apply the output transform, set FIN. -/
def finalize (s : State) : State :=
  let t := absorbBytes (pad s.off.val s.cnt) s
  setFin { t with h := outputTransform t.h }

/-- FINAL (R183). Cause 3 when FIN = 1. -/
def execFinal (s : State) : Host.Outcome State Fault Refusal := unlessFinal s finalize

end Sys2Proof.Machine
end

