-- ==== Sys2Proof/Machine/Permutation.lean ====
section
/-! DEFINITION. The commands PERMP and PERMQ (40_permutation.md R120, R121). -/

namespace Sys2Proof.Machine

/-- PERMP (R120): `M <- π_P(M)`, whatever FIN is. -/
def execPermp (s : State) : Host.Outcome State Fault Refusal := .next { s with m := perm .P s.m }

/-- PERMQ (R121): `M <- π_Q(M)`, whatever FIN is. -/
def execPermq (s : State) : Host.Outcome State Fault Refusal := .next { s with m := perm .Q s.m }

end Sys2Proof.Machine
end

