-- ==== Sys2Proof/Machine/Dispatch.lean ====
section
/-! DEFINITION. The dispatch of 30_encoding.md R76, one arm per command. -/

namespace Sys2Proof.Machine

def exec (i : Instr) (s : State) : Host.Outcome State Fault Refusal :=
  match i with
  | .nop => Sys2Proof.Machine.execNop s
  | .init => Sys2Proof.Machine.execInit s
  | .permp => Sys2Proof.Machine.execPermp s
  | .permq => Sys2Proof.Machine.execPermq s
  | .compress => Sys2Proof.Machine.execCompress s
  | .absorb len => Sys2Proof.Machine.execAbsorb len s
  | .final => Sys2Proof.Machine.execFinal s

end Sys2Proof.Machine
end

