-- ==== Sys2Proof/Machine/Bus.lean ====
section
/-! DEFINITION. Taking one host event: reads and writes of the window, issuing a command, reset
(20_memory.md R51 to R58, 30_encoding.md R76, 70_reset_and_hazards.md R250). -/

namespace Sys2Proof.Machine

/-- Issuing the command word `v` (R54, R76): a word that decoding rejects records its cause and does nothing else; the
check of FIN that R223 puts after decoding stands in the meanings of the three commands it concerns. -/
def issue (v : Word) (s : State) : Host.Outcome State Fault Refusal :=
  match decode v with
  | .illegal c => cmdError c s
  | .cmd i => exec i s

/-- A write of `v` to slot `k` (R54): CMD issues a command, M takes the value, every other slot ignores it. -/
def writeSlot (k : Fin 32) (v : Word) (s : State) : Host.Outcome State Fault Refusal :=
  match slotOf k with
  | .cmd => issue v s
  | .m j => .next (writeM s j v)
  | .status | .cnt | .h _ | .reserved => .next s

/-- Taking one host event. -/
def takeEvent (e : HostEvent) (s : State) : Host.Outcome State Fault Refusal :=
  match e with
  | .read offset size =>
    match locate offset size with
    | .slot k => .next (reply s (readSlot s k))
    | .unmodelled => .refused .unmodelledAccess
    | .outside => .fault .outsideWindow
  | .write offset size v =>
    match locate offset size with
    | .slot k => writeSlot k v s
    | .unmodelled => .refused .unmodelledAccess
    | .outside => .fault .outsideWindow
  | .reset => .next (hardReset s)
  | .secondHost => .refused .secondHost
  | .resetInsideCommand => .refused .resetInsideCommand

/-- The state with its oldest pending event taken off the list. -/
def dropEvent (s : State) : State := { s with pending := s.pending.tail }

/-- The event that is a write of the command word `v` to CMD (30_encoding.md R70, R79). -/
def commandWrite (v : Word) : HostEvent := .write 0 8 v

end Sys2Proof.Machine
end

