-- ==== Sys2Proof/Machine/Step.lean ====
section
/-! DEFINITION. One step: the oldest pending host event, taken whole (20_memory.md R57, R58). -/

namespace Sys2Proof.Machine

/-- One step. With no event pending the engine does nothing and keeps its state (60_exceptions.md R231, log entry 2). -/
def step (s : State) : Host.Outcome State Fault Refusal :=
  match s.pending with
  | [] => .next s
  | e :: _ => takeEvent e (dropEvent s)

/-- The state whose very next step issues the command word `w` of `nbits` bits: a write to CMD stands first among
the pending events (10_state.md R31: the host's order of accesses is the program; log entry 1). -/
def State.withFetchWord (s : State) (nbits w : Nat) : State :=
  { s with pending := commandWrite (BitVec.ofNat 64 (w % 2 ^ nbits)) :: s.pending }

end Sys2Proof.Machine
end

