-- ==== Sys2Proof/Machine/HostProgram.lean ====
section
/-! DEFINITION. Host programs: the lines of the assembler, their text, and the pseudo-instructions
(30_encoding.md R79, R80). -/

namespace Sys2Proof.Machine

/-- What stands for `<reg>` in a line (R79). -/
inductive AsmReg where
  | cmd
  | status
  | cnt
  | h (j : Fin 8)
  | m (j : Fin 8)
  /-- A raw offset `@0xNN`; the model takes any offset, one outside the window too (DESIGN CHOICE, log entry 17). -/
  | raw (offset : Nat)
deriving DecidableEq, Repr

/-- The offset of a register in the window (R50, R79). -/
def AsmReg.offset : AsmReg → Nat
  | .cmd => 0x00
  | .status => 0x08
  | .cnt => 0x10
  | .h j => 0x40 + 8 * j.val
  | .m j => 0x80 + 8 * j.val
  | .raw offset => offset

/-- A line of a host program (R79). -/
inductive AsmLine where
  /-- A command mnemonic: exactly `WR CMD, <its word>`. -/
  | command (i : Instr)
  /-- `WR <reg>, <imm64>`, where `<reg>` may be CMD and the value any word (DESIGN CHOICE, log entry 18). -/
  | wr (r : AsmReg) (imm : Word)
  /-- `RD <reg>`. -/
  | rd (r : AsmReg)
  /-- `.raw <imm64>`: an arbitrary word to CMD. -/
  | rawCommand (imm : Word)
deriving DecidableEq, Repr

/-- The access a line makes (R79). -/
def AsmLine.event : AsmLine → HostEvent
  | .command i => commandWrite (encode i)
  | .wr r imm => .write r.offset 8 imm
  | .rd r => .read r.offset 8
  | .rawCommand imm => commandWrite imm

/-- The accesses of a host program, in its order (R58, R79). -/
def programEvents (p : List AsmLine) : List HostEvent := p.map AsmLine.event

/-! Pseudo-instructions (R80). -/

/-- `LOADM <b0 … b(t−1)>` for t ≤ 64: eight writes of M, missing bytes taken as 0x00 (log entry 14). -/
def loadm (bytes : List Byte) : List AsmLine :=
  (List.finRange 8).map fun j => .wr (.m j) (wordOf fun i => bytes.getD (8 * j.val + i.val) 0)

/-- `RDDIGEST`. -/
def rdDigest : List AsmLine := [.rd (.h 4), .rd (.h 5), .rd (.h 6), .rd (.h 7)]

/-- `HASH <message>`: INIT, the whole blocks, the rest when there is one, FINAL, RDDIGEST. -/
def hashProgram (msg : List Byte) : List AsmLine :=
  let whole := (List.range (msg.length / 64)).flatMap fun c =>
    loadm ((msg.drop (64 * c)).take 64) ++ [.command (.absorb 64)]
  let rest :=
    if msg.length % 64 ≠ 0 then
      loadm (msg.drop (64 * (msg.length / 64))) ++ [.command (.absorb (BitVec.ofNat 7 (msg.length % 64)))]
    else []
  .command .init :: (whole ++ rest ++ .command .final :: rdDigest)

/-! The text of a line (R79, R80), as a list of characters (log entry 14). -/

/-- Drop a comment, which `;` starts. -/
def stripComment (cs : List Char) : List Char := cs.takeWhile (· ≠ ';')

/-- A token kept only when it holds a character. -/
def keepToken (cur : List Char) : List (List Char) := if cur = [] then [] else [cur]

/-- Split a line into tokens at blanks and tabs; a comma is a token of its own. -/
def tokens : List Char → List Char → List (List Char)
  | [], cur => keepToken cur
  | c :: cs, cur =>
    if c = ' ' ∨ c = '\t' then keepToken cur ++ tokens cs []
    else if c = ',' then keepToken cur ++ [','] :: tokens cs []
    else tokens cs (cur ++ [c])

/-- The value of a digit, in either case of a hexadecimal letter. -/
def digitValue (c : Char) : Option Nat :=
  let n := c.toNat
  if 48 ≤ n ∧ n ≤ 57 then some (n - 48)
  else if 97 ≤ n ∧ n ≤ 102 then some (n - 87)
  else if 65 ≤ n ∧ n ≤ 70 then some (n - 55)
  else none

/-- Digits in a base, most significant first, after the value `acc` of those before. -/
def digitsValue (base : Nat) : List Char → Nat → Option Nat
  | [], acc => some acc
  | c :: cs, acc =>
    match digitValue c with
    | some d => if d < base then digitsValue base cs (base * acc + d) else none
    | none => none

/-- A number in 0x-hex. -/
def parseHex : List Char → Option Nat
  | '0' :: 'x' :: c :: cs => digitsValue 16 (c :: cs) 0
  | _ => none

/-- A number in decimal or 0x-hex. -/
def parseNumber (cs : List Char) : Option Nat :=
  match parseHex cs with
  | some n => some n
  | none => if cs = [] then none else digitsValue 10 cs 0

/-- `<imm64>`: a 64-bit number in 0x-hex. -/
def parseImm64 (cs : List Char) : Option Word :=
  match parseHex cs with
  | some n => if n < 2 ^ 64 then some (BitVec.ofNat 64 n) else none
  | none => none

/-- The register number after `H` or `M`. -/
def parseIndex (c : Char) : Option (Fin 8) :=
  match digitValue c with
  | some d => if h : d < 8 then some ⟨d, h⟩ else none
  | none => none

/-- `<reg>`. R79 shows a raw offset with two digits and gives no bound: one digit or more are taken, with any value, and
where the access lands is for the step to say (DESIGN CHOICE, log entry 17). -/
def parseReg : List Char → Option AsmReg
  | ['C', 'M', 'D'] => some .cmd
  | ['S', 'T', 'A', 'T', 'U', 'S'] => some .status
  | ['C', 'N', 'T'] => some .cnt
  | ['H', c] => (parseIndex c).map .h
  | ['M', c] => (parseIndex c).map .m
  | '@' :: cs => (parseHex cs).map .raw
  | _ => none

/-- The operand of `ABSORB <n>`: 0 to 64. -/
def parseLen (cs : List Char) : Option Instr :=
  match parseNumber cs with
  | some n => if n ≤ 64 then some (.absorb (BitVec.ofNat 7 n)) else none
  | none => none

/-- The operation of a line's tokens; none when the tokens are no operation. `WR` to CMD, or to the raw offset 0, is
taken with every word, illegal and reserved ones too, beside `.raw` (DESIGN CHOICE, log entry 18). -/
def parseTokens : List (List Char) → Option AsmLine
  | [['N', 'O', 'P']] => some (.command .nop)
  | [['I', 'N', 'I', 'T']] => some (.command .init)
  | [['P', 'E', 'R', 'M', 'P']] => some (.command .permp)
  | [['P', 'E', 'R', 'M', 'Q']] => some (.command .permq)
  | [['C', 'O', 'M', 'P', 'R', 'E', 'S', 'S']] => some (.command .compress)
  | [['F', 'I', 'N', 'A', 'L']] => some (.command .final)
  | [['A', 'B', 'S', 'O', 'R', 'B'], n] => (parseLen n).map .command
  | [['W', 'R'], r, [','], v] =>
    match parseReg r, parseImm64 v with
    | some r, some v => some (.wr r v)
    | _, _ => none
  | [['R', 'D'], r] => (parseReg r).map .rd
  | [['.', 'r', 'a', 'w'], v] => (parseImm64 v).map .rawCommand
  | _ => none

/-- A byte string as hex pairs, first byte first (R10). -/
def parseBytes : List Char → Option (List Byte)
  | [] => some []
  | [_] => none
  | a :: b :: cs =>
    match digitValue a, digitValue b, parseBytes cs with
    | some x, some y, some bs => some (BitVec.ofNat 8 (16 * x + y) :: bs)
    | _, _, _ => none

/-- The lines of a pseudo-instruction (R80); its byte string may stand in one token or in several. -/
def parsePseudo : List (List Char) → Option (List AsmLine)
  | [['R', 'D', 'D', 'I', 'G', 'E', 'S', 'T']] => some rdDigest
  | ['L', 'O', 'A', 'D', 'M'] :: ts =>
    match parseBytes ts.flatten with
    | some bs => if bs.length ≤ 64 then some (loadm bs) else none
    | none => none
  | ['H', 'A', 'S', 'H'] :: ts => (parseBytes ts.flatten).map hashProgram
  | _ => none

/-- A line of text: no operation for a blank or comment line, else one operation or a pseudo-instruction's lines. -/
def parseLine (cs : List Char) : Option (List AsmLine) :=
  match tokens (stripComment cs) [] with
  | [] => some []
  | ts =>
    match parseTokens ts with
    | some l => some [l]
    | none => parsePseudo ts

/-- A program text, line by line; none when a line is no operation. -/
def parseProgram : List (List Char) → Option (List AsmLine)
  | [] => some []
  | l :: ls =>
    match parseLine l, parseProgram ls with
    | some a, some b => some (a ++ b)
    | _, _ => none

end Sys2Proof.Machine
end

