-- ==== Sys2Proof/Machine/Instances.lean ====
section
/-! DEFINITION. Several instances side by side (60_exceptions.md R229). -/

namespace Sys2Proof.Machine

/-- Instances share nothing: each has a whole state, and its own window at its own BASE (R229). -/
abbrev Board := List State

/-- One step of instance `k` of a board. A number with no instance changes nothing (log entry 12). -/
def stepInstance (k : Nat) (b : Board) : Host.Outcome Board Fault Refusal :=
  match b[k]? with
  | none => .next b
  | some s =>
    match step s with
    | .next t => .next (b.set k t)
    | .fault r => .fault r
    | .refused r => .refused r

end Sys2Proof.Machine
end

