-- ==== Sys2Proof/Safety.lean ====
section
/-! DEFINITION. The terms claims are stated in: the invariants of 10_state.md R35, what a host event is, what the host
cannot see, the work of a command, and the hash of a whole byte string. -/

namespace Sys2Proof.Machine

/-- The invariants between commands (R35); `0 ≤ OFF ≤ 63` is the type of `off`. -/
def EngineInv (s : State) : Prop :=
  (s.err = false → s.ecause = 0) ∧
  (s.err = true → s.ecause = 1 ∨ s.ecause = 2 ∨ s.ecause = 3) ∧
  (s.fin = true → s.off = 0)

/-- `k` steps, stopping at the first that answers no next state. -/
def run : Nat → State → Host.Outcome State Fault Refusal
  | 0, s => .next s
  | k + 1, s =>
    match step s with
    | .next t => run k t
    | .fault r => .fault r
    | .refused r => .refused r

/-- The event is a modelled one: an aligned 8-byte access inside the window (R51) or a reset between commands (R250). -/
def modelledEvent : HostEvent → Bool
  | .read offset size => match locate offset size with
    | .slot _ => true
    | .unmodelled | .outside => false
  | .write offset size _ => match locate offset size with
    | .slot _ => true
    | .unmodelled | .outside => false
  | .reset => true
  | .secondHost | .resetInsideCommand => false

/-- The command an event issues, if it is an accepted form: a write to CMD of a word that decodes (R54, R76). -/
def commandOfEvent : HostEvent → Option Instr
  | .write offset size v =>
    match locate offset size with
    | .slot k => if slotOf k = .cmd then
        match decode v with
        | .cmd i => some i
        | .illegal _ => none
      else none
    | .unmodelled | .outside => none
  | .read _ _ | .reset | .secondHost | .resetInsideCommand => none

/-- The block register that an event writes (R54). -/
def writesM : HostEvent → Bool
  | .write offset size _ =>
    match locate offset size with
    | .slot k => match slotOf k with
      | .m _ => true
      | .cmd | .status | .cnt | .h _ | .reserved => false
    | .unmodelled | .outside => false
  | .read _ _ | .reset | .secondHost | .resetInsideCommand => false

/-- The event seeds the engine: a reset, or an accepted INIT (R28, R29, R34). -/
def seeds (e : HostEvent) : Prop := e = .reset ∨ commandOfEvent e = some .init

/-- Two states that differ at most in the bytes of BUF at index OFF and above (R25). -/
def SameButTail (s t : State) : Prop := { s with buf := t.buf } = t ∧ tailBytes s = tailBytes t

/-- The outcomes of two machines whose next states, if there are any, differ at most in BUF at OFF and above. -/
def SameOutcomeButTail : Host.Outcome State Fault Refusal → Host.Outcome State Fault Refusal → Prop
  | .next s, .next t => SameButTail s t
  | .fault a, .fault b => a = b
  | .refused a, .refused b => a = b
  | _, _ => False

/-- How many compressions an accepted command makes through AbsorbByte (R162, R163, R183). -/
def blocksAbsorbed (i : Instr) (s : State) : Nat :=
  match i with
  | .absorb len => (s.off.val + len.toNat) / 64
  | .final => padBlocks s.off.val
  | .nop | .init | .permp | .permq | .compress => 0

/-- How often an accepted command evaluates P or Q (R258, for reference; no rule depends on it,
log entry 15). -/
def permutationCalls (i : Instr) (s : State) : Nat :=
  match i with
  | .nop | .init => 0
  | .permp | .permq => 1
  | .compress => 2
  | .absorb len => 2 * blocksAbsorbed (.absorb len) s
  | .final => 2 * blocksAbsorbed .final s + 1

/-! The hash of a byte string in one piece, without buffer, offset or counter register (R2, R254). -/

/-- The block that the first 64 bytes of a string are; the string is read as having 0x00 after its end. -/
def blockOf (bs : List Byte) : Wide := deser (Vector.ofFn fun k : Fin 64 => bs.getD k.val 0)

/-- The whole 64-byte blocks of a string, in order. -/
def wholeBlocks (bs : List Byte) : List Wide :=
  (List.range (bs.length / 64)).map fun c => blockOf (bs.drop (64 * c))

/-- The chaining value after the whole blocks of a string, from `h` (R140, R160). -/
def chain (h : Wide) (bs : List Byte) : Wide := (wholeBlocks bs).foldl cf h

/-- The bytes of a string after its whole blocks. -/
def leftover (bs : List Byte) : List Byte := bs.drop (64 * (bs.length / 64))

/-- Groestl-256 of a message (R2): the seeded chaining value, the padded message, the output transform, truncation. -/
def hashOf (msg : List Byte) : List Byte :=
  trunc (outputTransform (chain Config.iv
    (msg ++ pad (msg.length % 64) (BitVec.ofNat 64 (msg.length / 64)))))

end Sys2Proof.Machine
end

