-- ==== Sys2Proof/Certificates/Slice0/Obligations.lean ====
section
/-! DEFINITION. The statements for the provers, from the numbered rules of spec/. -/

open Sys2Proof Sys2Proof.Machine

/-! ## Encoding (30_encoding.md) -/

/-- R70, R74: the command word of every legal command decodes to that command, for every LEN from 0 to 64. -/
def Obligations.EncodeThenDecodeGivesTheCommand : Prop :=
  ∀ i : Instr, i.wf = true → decode (encode i) = .cmd i

/-- R70, R73: a word that decodes to a command is that command's only word: no bit of it is ignored. -/
def Obligations.DecodedWordIsTheEncoding : Prop :=
  ∀ (v : Word) (i : Instr), decode v = .cmd i → encode i = v ∧ i.wf = true

/-- R75, R77: which words are rejected with cause 1, which with cause 2, and which are commands, with their fields. -/
def Obligations.DecodeSplitsEveryWord : Prop :=
  ∀ v : Word,
    let known := v.extractLsb' 0 8 ∈ ([0x00, 0x01, 0x10, 0x11, 0x20, 0x30, 0x40] : List Byte)
    let reserved := v.extractLsb' 8 8 ≠ 0 ∨ v.extractLsb' 23 41 ≠ 0 ∨
      (v.extractLsb' 0 8 = (0x30 : Byte) ∧ 64 < (v.extractLsb' 16 7).toNat) ∨
      (v.extractLsb' 0 8 ≠ (0x30 : Byte) ∧ v.extractLsb' 16 7 ≠ 0)
    (decode v = .illegal .illegalOpcode ↔ ¬ known) ∧
    (decode v = .illegal .reservedField ↔ known ∧ reserved) ∧
    decode v ≠ .illegal .inputAfterFinal ∧
    ((∃ i, decode v = .cmd i) ↔ known ∧ ¬ reserved) ∧
    ∀ i, decode v = .cmd i → i.opcode = v.extractLsb' 0 8 ∧ i.lenOperand = v.extractLsb' 16 7

/-- R74: the words of the seven commands, written out, decode to them. -/
def Obligations.ListedWordsDecode : Prop :=
  [0x0000000000000000, 0x0000000000000001, 0x0000000000000010, 0x0000000000000011, 0x0000000000000020,
   0x0000000000200030, 0x0000000000400030, 0x0000000000000040].map (decodeTableWord 64) =
  [some .nop, some .init, some .permp, some .permq, some .compress, some (.absorb 32), some (.absorb 64),
   some .final]

/-! ## Issuing commands and recording errors (R76, R220 to R223) -/

/-- R76: a CMD write of a word that decodes runs the command it decodes to, on the state less that event; and
`withFetchWord` places exactly that write (log entry 1). -/
def Obligations.StepRunsTheDecodedCommand : Prop :=
  (∀ (s : State) (v : Word) (rest : List HostEvent) (i : Instr),
    s.pending = commandWrite v :: rest → decode v = .cmd i → step s = exec i { s with pending := rest }) ∧
  ∀ (s : State) (w : Nat) (i : Instr),
    w < 2 ^ 64 → decode (BitVec.ofNat 64 w) = .cmd i → step (s.withFetchWord 64 w) = exec i s

/-- R220: a word that fails check changes no state except ERR and ECAUSE, and of these it keeps the first cause (R222). -/
def Obligations.RejectedWordChangesOnlyErrAndEcause : Prop :=
  ∀ (s : State) (v : Word) (rest : List HostEvent) (c : Cause),
    s.pending = commandWrite v :: rest → check v s = some c →
    step s = .next { s with pending := rest, err := true, ecause := if s.err then s.ecause else c.code }

/-- R223: the one cause reported, 1 before 2 before 3, and when a word is accepted. -/
def Obligations.CheckReportsOneCauseInPriority : Prop :=
  ∀ (v : Word) (s : State),
    let opc : Byte := v.extractLsb' 0 8
    let known := opc ∈ ([0x00, 0x01, 0x10, 0x11, 0x20, 0x30, 0x40] : List Byte)
    let reserved := v.extractLsb' 8 8 ≠ 0 ∨ v.extractLsb' 23 41 ≠ 0 ∨
      (opc = 0x30 ∧ 64 < (v.extractLsb' 16 7).toNat) ∨ (opc ≠ 0x30 ∧ v.extractLsb' 16 7 ≠ 0)
    let late := s.fin = true ∧ (opc = 0x20 ∨ opc = 0x30 ∨ opc = 0x40)
    (check v s = some .illegalOpcode ↔ ¬ known) ∧
    (check v s = some .reservedField ↔ known ∧ reserved) ∧
    (check v s = some .inputAfterFinal ↔ known ∧ ¬ reserved ∧ late) ∧
    (check v s = none ↔ known ∧ ¬ reserved ∧ ¬ late)

/-- R76: a CMD write of a word raises the cause that check finds, and otherwise runs the command whose word it is. -/
def Obligations.IssueFollowsCheck : Prop :=
  ∀ (v : Word) (s : State) (rest : List HostEvent), s.pending = commandWrite v :: rest →
    (∀ c, check v s = some c → step s = .next (recordError c { s with pending := rest })) ∧
    (check v s = none → ∃ i, decode v = .cmd i ∧ encode i = v ∧ step s = exec i { s with pending := rest })

/-- R221, R256: while FIN = 1, COMPRESS, ABSORB and FINAL record cause 3 and do nothing else; ABSORB of more than 64
records cause 2 whatever FIN is. -/
def Obligations.InputAfterFinalIsRejected : Prop :=
  ∀ (s : State) (n : BitVec 7),
    (s.fin = true →
      exec .compress s = .next (recordError .inputAfterFinal s) ∧
      exec .final s = .next (recordError .inputAfterFinal s) ∧
      (n.toNat ≤ 64 → exec (.absorb n) s = .next (recordError .inputAfterFinal s))) ∧
    (64 < n.toNat → exec (.absorb n) s = .next (recordError .reservedField s))

/-- R222: recording sets ERR and ECAUSE when ERR was 0 and changes nothing when it was 1. -/
def Obligations.FirstCauseIsKept : Prop :=
  ∀ (c : Cause) (s : State),
    (s.err = false → recordError c s =
      { s with err := true, ecause := match c with | .illegalOpcode => 1 | .reservedField => 2 | .inputAfterFinal => 3 }) ∧
    (s.err = true → recordError c s = s)

/-! ## The register window (20_memory.md) -/

/-- R53: what a read of each slot returns; a read changes no state of the engine. -/
def Obligations.ReadsReturnTheSlot : Prop :=
  ∀ (s : State) (rest : List HostEvent) (k : Fin 32),
    s.pending = .read (8 * (k.val : Int)) 8 :: rest →
    ∃ v : Word, step s = .next { s with pending := rest, replies := s.replies ++ [v] } ∧
      (k.val = 0 → v = 0) ∧ (k.val = 1 → v = statusWord s) ∧ (k.val = 2 → v = s.cnt) ∧
      (3 ≤ k.val → k.val < 8 → v = 0) ∧ (∀ j : Fin 8, k.val = 8 + j.val → v = s.h[j]) ∧
      (∀ j : Fin 8, k.val = 16 + j.val → v = s.m[j]) ∧ (24 ≤ k.val → v = 0)

/-- R54: a write to CMD issues the command, a write to M stores the value, any other write changes nothing. -/
def Obligations.WritesReachOnlyCmdAndM : Prop :=
  ∀ (s : State) (rest : List HostEvent) (k : Fin 32) (v : Word),
    s.pending = .write (8 * (k.val : Int)) 8 v :: rest →
    (k.val = 0 → step s = issue v { s with pending := rest }) ∧
    (∀ j : Fin 8, k.val = 16 + j.val → step s = .next { s with pending := rest, m := s.m.set j.val v }) ∧
    (k.val ≠ 0 → k.val < 16 ∨ 24 ≤ k.val → step s = .next { s with pending := rest })

/-- R52: a read of STATUS returns a word with these fields, and a write to it is ignored. -/
def Obligations.StatusLayout : Prop :=
  ∀ (s : State) (rest : List HostEvent),
    (s.pending = .read 0x08 8 :: rest →
      ∃ v : Word, step s = .next { s with pending := rest, replies := s.replies ++ [v] } ∧
        v.getLsbD 0 = s.fin ∧ v.getLsbD 1 = s.err ∧ v.extractLsb' 2 2 = 0 ∧ v.extractLsb' 4 4 = s.ecause ∧
        (v.extractLsb' 8 6).toNat = s.off.val ∧ v.extractLsb' 14 50 = 0) ∧
    ∀ v, s.pending = .write 0x08 8 v :: rest → step s = .next { s with pending := rest }

/-- R51: an access that touches the window and is not an aligned 8-byte access inside it is refused. -/
def Obligations.OtherAccessesAreRefused : Prop :=
  ∀ (s : State) (rest : List HostEvent) (offset : Int) (size : Nat) (v : Word),
    size ≠ 8 ∨ offset < 0 ∨ 248 < offset ∨ offset % 8 ≠ 0 →
    0 < offset + size → offset < 256 →
    (s.pending = .read offset size :: rest → step s = .refused .unmodelledAccess) ∧
    (s.pending = .write offset size v :: rest → step s = .refused .unmodelledAccess)

/-- R50, and the model's choice of log entry 8: an access that touches no byte of the window stops by name. -/
def Obligations.AccessOutsideTheWindowFaults : Prop :=
  ∀ (s : State) (rest : List HostEvent) (offset : Int) (size : Nat) (v : Word),
    offset + size ≤ 0 ∨ 256 ≤ offset →
    (s.pending = .read offset size :: rest → step s = .fault .outsideWindow) ∧
    (s.pending = .write offset size v :: rest → step s = .fault .outsideWindow)

/-- R50, R51: for every BASE, the modelled bus accesses are exactly the aligned 8-byte ones in BASE to BASE + 0xFF,
and the one at BASE + 8k lands on slot k. -/
def Obligations.WindowStandsAtAnyBase : Prop :=
  ∀ (base addr size : Nat) (v : Word),
    (modelledEvent (busEvent base (.memRead addr size)) = true ↔
      size = 8 ∧ base ≤ addr ∧ addr < base + 256 ∧ (addr - base) % 8 = 0) ∧
    (modelledEvent (busEvent base (.memWrite addr size v)) = true ↔
      size = 8 ∧ base ≤ addr ∧ addr < base + 256 ∧ (addr - base) % 8 = 0) ∧
    ∀ k : Fin 32, busEvent base (.memRead (base + 8 * k.val) 8) = .read (8 * (k.val : Int)) 8 ∧
      busEvent base (.memWrite (base + 8 * k.val) 8 v) = .write (8 * (k.val : Int)) 8 v ∧
      locate (8 * (k.val : Int)) 8 = .slot k

/-- R57, R58, R231: a step that answers a next state has taken the oldest event and no other, and has added at most one
reply, after every earlier one; with no event pending the engine keeps its state (the model's choice, log entry 2). -/
def Obligations.EventsAreTakenInOrder : Prop :=
  ∀ s : State,
    (∀ t, step s = .next t →
      t.pending = s.pending.tail ∧ (t.replies = s.replies ∨ ∃ v, t.replies = s.replies ++ [v])) ∧
    (s.pending = [] → step s = .next s)

/-- R224: every modelled event is taken to a next state, in every state. -/
def Obligations.ModelledEventsComplete : Prop :=
  ∀ (s : State) (e : HostEvent) (rest : List HostEvent),
    s.pending = e :: rest → modelledEvent e = true → ∃ t, step s = .next t ∧ t.pending = rest

/-! ## Reset (R34, R250) -/

/-- R34: the values of the reset state that the spec gives. -/
def Obligations.ResetValues : Prop :=
  (∀ j : Fin 8, j.val < 7 → State.reset.h[j] = 0) ∧ State.reset.h[7] = 0x0000000000000100 ∧
  State.reset.cnt = 0 ∧ State.reset.off = 0 ∧ State.reset.fin = false ∧ State.reset.err = false ∧
  State.reset.ecause = 0

/-- R34, R250: a reset event writes the reset values in every state; M and BUF take free values (log entries 4, 5). -/
def Obligations.ResetEventSeedsTheEngine : Prop :=
  ∀ (s : State) (rest : List HostEvent), s.pending = .reset :: rest →
    ∃ t, step s = .next t ∧ t.h = #v[0, 0, 0, 0, 0, 0, 0, 0x100] ∧ t.cnt = 0 ∧ t.off = 0 ∧ t.fin = false ∧
      t.err = false ∧ t.ecause = 0 ∧ (∀ j : Fin 8, t.m[j] = Config.mReset s.draws j.val) ∧
      (∀ k : Fin 64, t.buf[k] = Config.bufReset s.draws k.val) ∧
      t.pending = rest ∧ t.replies = s.replies ∧ t.draws = s.draws + 1

/-! ## The commands -/

/-- R200: NOP completes in every state and changes nothing. -/
def Obligations.NopChangesNothing : Prop := ∀ s : State, exec .nop s = .next s

/-- R201: INIT completes in every state, with the seeded values; M and BUF stay. -/
def Obligations.InitSeedsTheEngine : Prop :=
  ∀ s : State, exec .init s = .next { s with h := #v[0, 0, 0, 0, 0, 0, 0, 0x0000000000000100], cnt := 0, off := 0,
                                              fin := false, err := false, ecause := 0 }

/-- R120: PERMP completes in every state, FIN = 1 among them; M takes π_P(M) and nothing else changes. -/
def Obligations.PermpPermutesM : Prop := ∀ s : State, exec .permp s = .next { s with m := perm .P s.m }

/-- R121: PERMQ completes in every state, FIN = 1 among them; M takes π_Q(M) and nothing else changes. -/
def Obligations.PermqPermutesM : Prop := ∀ s : State, exec .permq s = .next { s with m := perm .Q s.m }

/-- R140, R142: COMPRESS completes while FIN = 0; H takes H ⊕ π_P(H ⊕ M) ⊕ π_Q(M), given word by word, and nothing else
changes. -/
def Obligations.CompressWritesOnlyH : Prop :=
  ∀ s : State, s.fin = false →
    ∃ x h : Wide, exec .compress s = .next { s with h := h } ∧
      (∀ j : Fin 8, x[j] = s.h[j] ^^^ s.m[j]) ∧
      ∀ j : Fin 8, h[j] = s.h[j] ^^^ (perm .P x)[j] ^^^ (perm .Q s.m)[j]

/-- R162: ABSORB n completes while FIN = 0 for every n from 0 to 64. With `all` the tail followed by the first n bytes of
ser(M): no compression below 64 bytes, else one, of the first 64; CNT, OFF, the tail, the bytes of BUF that are
written, and everything that stays. -/
def Obligations.AbsorbFeedsTheBuffer : Prop :=
  ∀ (n : BitVec 7) (s : State), s.fin = false → n.toNat ≤ 64 →
    ∃ t, exec (.absorb n) s = .next t ∧
      let all := tailBytes s ++ (ser s.m).toList.take n.toNat
      (s.off.val + n.toNat < 64 →
        t.h = s.h ∧ t.cnt = s.cnt ∧ t.off.val = s.off.val + n.toNat ∧ tailBytes t = all ∧
        ∀ k (hk : k < 64), k < s.off.val ∨ s.off.val + n.toNat ≤ k → t.buf[k] = s.buf[k]) ∧
      (64 ≤ s.off.val + n.toNat →
        t.h = cf s.h (blockOf all) ∧ t.cnt = s.cnt + 1 ∧ t.off.val = s.off.val + n.toNat - 64 ∧
        tailBytes t = all.drop 64 ∧ t.buf.toList.drop t.off.val = (all.take 64).drop t.off.val) ∧
      t.m = s.m ∧ t.fin = s.fin ∧ t.err = s.err ∧ t.ecause = s.ecause ∧
      t.pending = s.pending ∧ t.replies = s.replies ∧ t.draws = s.draws

/-- R162: ABSORB 64 on an empty buffer compresses M itself: with FIN = 0 it does what COMPRESS does to H, and counts it. -/
def Obligations.AbsorbWholeBlockCompressesM : Prop :=
  ∀ s : State, s.fin = false → s.off = 0 →
    ∃ t, exec (.absorb 64) s = .next t ∧ t.h = cf s.h s.m ∧ t.cnt = s.cnt + 1 ∧ t.off = 0 ∧ t.m = s.m ∧
      exec .compress s = .next { s with h := t.h }

/-- R181, R183: FINAL completes while FIN = 0. With `p` the tail followed by its padding and `x` the chained value: one
compression for a tail below 56 bytes, else two, then H takes Ω(x) = x ⊕ π_P(x), given word by word; CNT is the padding's
count field, OFF is 0, BUF holds the last block, and the rest stays. -/
def Obligations.FinalPadsAndTransforms : Prop :=
  ∀ s : State, s.fin = false →
    ∃ (t : State) (x : Wide), exec .final s = .next t ∧
      let p := tailBytes s ++ pad s.off.val s.cnt
      (s.off.val < 56 → x = cf s.h (blockOf p) ∧ t.cnt = s.cnt + 1 ∧ t.buf.toList = p) ∧
      (56 ≤ s.off.val →
        x = cf (cf s.h (blockOf p)) (blockOf (p.drop 64)) ∧ t.cnt = s.cnt + 2 ∧ t.buf.toList = p.drop 64) ∧
      (∀ j : Fin 8, t.h[j] = x[j] ^^^ (perm .P x)[j]) ∧
      t.off = 0 ∧ t.fin = true ∧ t.m = s.m ∧ t.err = s.err ∧ t.ecause = s.ecause ∧
      t.pending = s.pending ∧ t.replies = s.replies ∧ t.draws = s.draws

/-- R180: the length, the parts and the count field of the padding, for every tail length and count. -/
def Obligations.PaddingShape : Prop :=
  ∀ (l : Nat) (cnt : Word), l < 64 →
    let n := if l < 56 then 1 else 2
    (pad l cnt).length = 64 * n - l ∧
    ∃ field : Word, field = cnt + BitVec.ofNat 64 n ∧
      pad l cnt = 0x80 :: (List.replicate (64 * n - l - 9) 0x00 ++
        [field.extractLsb' 56 8, field.extractLsb' 48 8, field.extractLsb' 40 8, field.extractLsb' 32 8,
         field.extractLsb' 24 8, field.extractLsb' 16 8, field.extractLsb' 8 8, field.extractLsb' 0 8])

/-- R182: TRUNC is the last 32 bytes of ser(H), and always 32 bytes. -/
def Obligations.DigestIsTheLastHalfOfSer : Prop :=
  ∀ h : Wide, trunc h = (ser h).toList.drop 32 ∧ (trunc h).length = 32

/-- R257: a compression at CNT = 2^64 − 1 wraps CNT to 0, in ABSORB and in FINAL of a short tail, whose count field is then
0; the two compressions of FINAL of a long tail leave 1. -/
def Obligations.CounterWrapsToZero : Prop :=
  ∀ (n : BitVec 7) (s : State), s.fin = false → s.cnt = 0xFFFFFFFFFFFFFFFF →
    (n.toNat ≤ 64 → 64 ≤ s.off.val + n.toNat → ∃ t, exec (.absorb n) s = .next t ∧ t.cnt = 0) ∧
    (s.off.val < 56 → (∃ t, exec .final s = .next t ∧ t.cnt = 0) ∧
      (pad s.off.val s.cnt).drop (56 - s.off.val) = List.replicate 8 0x00) ∧
    (56 ≤ s.off.val → (∃ t, exec .final s = .next t ∧ t.cnt = 1) ∧
      (pad s.off.val s.cnt).drop (120 - s.off.val) = List.replicate 7 0x00 ++ [0x01])

/-! ## Whole-machine rules -/

/-- R35: the reset state meets the invariants. -/
def Obligations.ResetMeetsTheInvariants : Prop := EngineInv State.reset

/-- R35: every step keeps the invariants, from every state that meets them. -/
def Obligations.StepKeepsTheInvariants : Prop := ∀ s t : State, EngineInv s → step s = .next t → EngineInv t

/-- R184: while FIN = 1 no step changes H or FIN, but a reset or an accepted INIT. -/
def Obligations.DigestStaysUntilInitOrReset : Prop :=
  ∀ (s t : State), s.fin = true → step s = .next t → (∀ e, s.pending.head? = some e → ¬ seeds e) →
    t.h = s.h ∧ t.fin = true

/-- R22: a step that changes H is a reset or an INIT, which write the IV, a COMPRESS, an ABSORB that fills the buffer, or a
FINAL. -/
def Obligations.OnlyFourCommandsWriteH : Prop :=
  ∀ s t : State, step s = .next t → t.h ≠ s.h →
    ∃ e, s.pending.head? = some e ∧
      (((e = .reset ∨ commandOfEvent e = some .init) ∧ t.h = #v[0, 0, 0, 0, 0, 0, 0, 0x0000000000000100]) ∨
        commandOfEvent e = some .compress ∨
        (∃ n, commandOfEvent e = some (.absorb n) ∧ 64 ≤ s.off.val + n.toNat) ∨ commandOfEvent e = some .final)

/-- R24: a step changes M only by PERMP, PERMQ, a host write of M, or a reset. -/
def Obligations.OnlyPermAndHostWriteM : Prop :=
  ∀ s t : State, step s = .next t → t.m ≠ s.m →
    ∃ e, s.pending.head? = some e ∧
      (e = .reset ∨ commandOfEvent e = some .permp ∨ commandOfEvent e = some .permq ∨ writesM e = true)

/-- R27, R163: an event that is no reset and no accepted INIT adds to CNT, modulo 2^64, the blocks its command absorbs
through AbsorbByte: those of ABSORB and FINAL while FIN = 0, and none for anything else. -/
def Obligations.CounterCountsAbsorbedBlocks : Prop :=
  ∀ (s t : State) (e : HostEvent) (rest : List HostEvent),
    s.pending = e :: rest → step s = .next t → ¬ seeds e →
    t.cnt = s.cnt + BitVec.ofNat 64 (match commandOfEvent e with
      | some (.absorb len) => if s.fin then 0 else (s.off.val + len.toNat) / 64
      | some .final => if s.fin then 0 else if s.off.val < 56 then 1 else 2
      | _ => 0)

/-- R29, R30, R222: once ERR is set, no step clears it or changes ECAUSE, but a reset or an accepted INIT. -/
def Obligations.ErrorIsSticky : Prop :=
  ∀ s t : State, s.err = true → step s = .next t → (∀ e, s.pending.head? = some e → ¬ seeds e) →
    t.err = true ∧ t.ecause = s.ecause

/-- R29, R222: ERR and ECAUSE change only by a reset, an accepted INIT, or a CMD write that check rejects. -/
def Obligations.ErrorNeedsARejectedCommand : Prop :=
  ∀ s t : State, step s = .next t → t.err ≠ s.err ∨ t.ecause ≠ s.ecause →
    ∃ e, s.pending.head? = some e ∧ (seeds e ∨ ∃ v c, e = commandWrite v ∧ check v s = some c ∧ t.ecause = c.code)

/-- R28: FIN is set only by FINAL and cleared only by a reset or an accepted INIT. -/
def Obligations.FinChangesOnlyByFinalAndSeeding : Prop :=
  ∀ s t : State, step s = .next t → t.fin ≠ s.fin →
    ∃ e, s.pending.head? = some e ∧
      ((t.fin = true ∧ commandOfEvent e = some .final) ∨ (t.fin = false ∧ seeds e))

/-- R25: the bytes of BUF at OFF and above are unobservable: two states that differ in them alone have the same outcome,
the same replies among it, and next states that again differ in such bytes alone. -/
def Obligations.BytesBeyondTheTailAreUnobservable : Prop :=
  ∀ s t : State, SameButTail s t → SameOutcomeButTail (step s) (step t)

/-- R229: a step of one instance leaves every other instance as it was, and its own is the step of that instance alone. -/
def Obligations.InstancesShareNothing : Prop :=
  ∀ (b b' : Board) (k : Nat) (s : State), b[k]? = some s → stepInstance k b = .next b' →
    (∃ t, step s = .next t ∧ b'[k]? = some t) ∧ ∀ j, j ≠ k → b'[j]? = b[j]?

/-! ## The algorithm (40_permutation.md to 43_finalizer.md) -/

/-- R12, R55: byte k of ser is bits 63 − 8(k mod 8) to 56 − 8(k mod 8) of word k div 8, and so is Mbyte(k) (R24); ser and
deser are inverse bijections. -/
def Obligations.SerAndDeserAreInverse : Prop :=
  (∀ (A : Wide) (k : Fin 64), (ser A)[k] = A[k.val / 8].extractLsb' (56 - 8 * (k.val % 8)) 8) ∧
  (∀ (s : State) (k : Fin 64), mbyte s k = (ser s.m)[k]) ∧
  (∀ A : Wide, deser (ser A) = A) ∧ ∀ b : Vector Byte 64, ser (deser b) = b

/-- R101: ten rounds, round 0 first. -/
def Obligations.PermutationIsTenRounds : Prop :=
  ∀ (v : Variant) (A : Wide),
    perm v A = permRound v 9 (permRound v 8 (permRound v 7 (permRound v 6 (permRound v 5 (permRound v 4 (permRound v 3
      (permRound v 2 (permRound v 1 (permRound v 0 A)))))))))

/-- R103, as words and in matrix terms: row 0 takes the column and round value, rows 1 to 7 are unchanged. -/
def Obligations.RoundConstantOfP : Prop :=
  ∀ (r : Nat) (X : Wide) (i j : Fin 8), r ≤ 9 →
    (addRoundConstant .P r X)[j] = X[j] ^^^ (((BitVec.ofNat 64 j.val <<< 4) ^^^ BitVec.ofNat 64 r) <<< 56) ∧
    entry (addRoundConstant .P r X) i j =
      if i = 0 then entry X i j ^^^ (BitVec.ofNat 8 (j.val * 0x10) ^^^ BitVec.ofNat 8 r) else entry X i j

/-- R104, as words and in matrix terms: every byte complemented, and row 7 takes the column and round value. -/
def Obligations.RoundConstantOfQ : Prop :=
  ∀ (r : Nat) (X : Wide) (i j : Fin 8), r ≤ 9 →
    (addRoundConstant .Q r X)[j] =
      X[j] ^^^ (0xFFFFFFFFFFFFFFFF#64 ^^^ ((BitVec.ofNat 64 j.val <<< 4) ^^^ BitVec.ofNat 64 r)) ∧
    entry (addRoundConstant .Q r X) i j =
      if i = 7 then entry X i j ^^^ (0xFF ^^^ BitVec.ofNat 8 (j.val * 0x10) ^^^ BitVec.ofNat 8 r)
      else entry X i j ^^^ 0xFF

/-- R105, R107, in matrix terms: SubBytes on each entry; ShiftBytes turns row i left by σ_v[i], so an output column takes
its bytes from eight different columns. -/
def Obligations.SubBytesAndShiftBytesEntries : Prop :=
  sigma .P = #v[0, 1, 2, 3, 4, 5, 6, 7] ∧ sigma .Q = #v[1, 3, 5, 7, 0, 2, 4, 6] ∧
  ∀ (v : Variant) (X : Wide) (i d : Fin 8),
    entry (subBytes X) i d = sbox (entry X i d) ∧
    entry (shiftBytes v X) i d = entry X i ⟨(d.val + (sigma v)[i].val) % 8, Nat.mod_lt _ (by decide)⟩ ∧
    Function.Injective fun k : Fin 8 => (d.val + (sigma v)[k].val) % 8

/-- R102: SubBytes and ShiftBytes commute. -/
def Obligations.SubBytesCommutesWithShiftBytes : Prop :=
  ∀ (v : Variant) (X : Wide), shiftBytes v (subBytes X) = subBytes (shiftBytes v X)

/-- R106: the table is the algebraic definition, the power 254 in it is the inverse, and the S-box is a bijection. -/
def Obligations.SboxIsTheAlgebraicBijection : Prop :=
  (∀ x : Byte, sbox x = sboxAlgebraic x) ∧ (∀ x : Byte, x ≠ 0 → gmul x (gfInverse x) = 1) ∧ gfInverse 0 = 0 ∧
  Function.Bijective sbox

/-- R108: the field product distributes over ⊕ in both operands, and 1 is its unit. -/
def Obligations.FieldProductIsBilinear : Prop :=
  ∀ a b c : Byte, gmul (a ^^^ b) c = gmul a c ^^^ gmul b c ∧ gmul a (b ^^^ c) = gmul a b ^^^ gmul a c ∧
    gmul a 1 = a ∧ gmul 1 a = a

/-- R109: row i of the matrix is row 0 turned right by i, each row XORs to 0x03, and a column of eight equal bytes c maps
to eight bytes 0x03 • c. -/
def Obligations.MixBytesOfAUniformColumn : Prop :=
  (∀ i k : Fin 8, mixMatrix (i + 1) (k + 1) = mixMatrix i k) ∧ (∀ i : Fin 8, xorSum (mixMatrix i) = 0x03) ∧
  ∀ (c : Byte) (i : Fin 8), byteOf (mixColumn (wordOf fun _ => c)) i = gmul 0x03 c

/-- R110: the fused table form is the normative MixBytes of ShiftBytes of SubBytes, and so is the whole permutation. -/
def Obligations.FusedTablesGiveTheRounds : Prop :=
  (∀ (v : Variant) (X : Wide), mixBytes (shiftBytes v (subBytes X)) = fusedStep v X) ∧
  ∀ (v : Variant) (A : Wide), perm v A = fusedPerm v A

/-- R113: every entry of the printed T0 table is the value R110 defines. -/
def Obligations.ListedT0IsTheDefinedT0 : Prop := ∀ x : Byte, t0Listed x = t0 x

/-- R112: π_P and π_Q are bijections on 512-bit values. -/
def Obligations.PermutationsAreBijections : Prop := ∀ v : Variant, Function.Bijective (perm v)

/-- R160: AbsorbByte puts the byte at BUF[OFF] and adds one to OFF; at 64 it compresses the buffer, counts and empties it. -/
def Obligations.AbsorbByteStep : Prop :=
  ∀ (s : State) (x : Byte),
    (∀ room : s.off.val + 1 < 64,
      absorbByte s x = { s with buf := s.buf.set s.off.val x, off := ⟨s.off.val + 1, room⟩ }) ∧
    (s.off.val = 63 →
      absorbByte s x = { s with buf := s.buf.set 63 x, h := cf s.h (deser (s.buf.set 63 x)), cnt := s.cnt + 1, off := 0 })

/-- R160, R161: AbsorbByte over a string of any length is the chain of whole blocks of the tail and the string: H, CNT,
OFF and the tail depend on the whole string only. -/
def Obligations.AbsorbingAStringChainsItsBlocks : Prop :=
  ∀ (bs : List Byte) (s : State),
    let all := tailBytes s ++ bs
    (absorbBytes bs s).h = chain s.h all ∧ (absorbBytes bs s).cnt = s.cnt + BitVec.ofNat 64 (all.length / 64) ∧
    (absorbBytes bs s).off.val = all.length % 64 ∧ tailBytes (absorbBytes bs s) = leftover all

/-- R161: one ABSORB of a + b bytes, or an ABSORB of a bytes and then of b bytes from a block register that now starts with
the rest of them, leave the same H, CNT, OFF and tail. -/
def Obligations.SplitAbsorbsAgree : Prop :=
  ∀ (a b c : BitVec 7) (s t u w : State) (m' : Wide), s.fin = false → c.toNat = a.toNat + b.toNat → c.toNat ≤ 64 →
    (ser m').toList.take b.toNat = ((ser s.m).toList.drop a.toNat).take b.toNat →
    exec (.absorb c) s = .next t → exec (.absorb a) s = .next u → exec (.absorb b) { u with m := m' } = .next w →
    w.h = t.h ∧ w.cnt = t.cnt ∧ w.off = t.off ∧ tailBytes w = tailBytes t

/-- R2, R163, R254: from every seeded state, absorbing any message and then FINAL leaves the Groestl-256 digest of the
message in words 4 to 7 of H, and the number of absorbed blocks in CNT. -/
def Obligations.SessionComputesTheHash : Prop :=
  ∀ (msg : List Byte) (s : State),
    s.h = Config.iv → s.cnt = 0 → s.off = 0 → s.fin = false →
    ∃ t, exec .final (absorbBytes msg s) = .next t ∧ trunc t.h = hashOf msg ∧ t.fin = true ∧ t.off = 0 ∧
      t.cnt = BitVec.ofNat 64 (msg.length / 64 + if msg.length % 64 < 56 then 1 else 2)

/-- R80: the eight writes LOADM expands to load the bytes into M, padded with zeros, and change nothing else. -/
def Obligations.LoadmLoadsTheBlock : Prop :=
  ∀ (bytes : List Byte) (s : State) (rest : List HostEvent),
    s.pending = programEvents (loadm bytes) ++ rest →
    run 8 s = .next { s with m := blockOf bytes, pending := rest }

/-- R80, R254: for every message, and from every state, the accesses HASH expands to all complete, and RDDIGEST's four
replies are the digest of the message. -/
def Obligations.HashExpansionReturnsTheDigest : Prop :=
  ∀ (msg : List Byte) (s : State), s.pending = programEvents (hashProgram msg) →
    ∃ t d4 d5 d6 d7, run (hashProgram msg).length s = .next t ∧ t.pending = [] ∧
      t.replies = s.replies ++ [d4, d5, d6, d7] ∧ be64 d4 ++ be64 d5 ++ be64 d6 ++ be64 d7 = hashOf msg ∧
      t.fin = true
end

