-- ==== Sys2Proof/Laws/Bytes.lean ====
section
/-! SUPPORT. What the byte and serialization functions do (00_scope.md R11, R12). -/

namespace Sys2Proof.Machine

/-- A statement about every row holds when it holds of the eight rows. -/
theorem forall_row {p : Fin 8 → Prop} (h0 : p 0) (h1 : p 1) (h2 : p 2) (h3 : p 3) (h4 : p 4) (h5 : p 5) (h6 : p 6)
    (h7 : p 7) (i : Fin 8) : p i := by
  match i with
  | 0 => exact h0
  | 1 => exact h1
  | 2 => exact h2
  | 3 => exact h3
  | 4 => exact h4
  | 5 => exact h5
  | 6 => exact h6
  | 7 => exact h7

theorem byteOf_getLsbD (w : Word) (i : Fin 8) (k : Nat) :
    (byteOf w i).getLsbD k = (decide (k < 8) && w.getLsbD (56 - 8 * i.val + k)) := by
  simp [byteOf, BitVec.getLsbD_extractLsb']

/-- Row `i` of an assembled column is the byte put there. -/
@[simp] theorem byteOf_wordOf (c : Fin 8 → Byte) (i : Fin 8) : byteOf (wordOf c) i = c i := by
  revert i
  refine forall_row ?_ ?_ ?_ ?_ ?_ ?_ ?_ ?_ <;>
  · apply BitVec.eq_of_getLsbD_eq
    intro k hk
    rw [byteOf_getLsbD]
    simp [wordOf]
    grind

/-- Two words with the same eight bytes are equal. -/
theorem word_ext {a b : Word} (h : ∀ i, byteOf a i = byteOf b i) : a = b := by
  apply BitVec.eq_of_getLsbD_eq
  intro k hk
  have := congrArg (fun x => BitVec.getLsbD x (k % 8)) (h ⟨7 - k / 8, by omega⟩)
  simp only [byteOf_getLsbD] at this
  have e : 56 - 8 * (7 - k / 8) + k % 8 = k := by omega
  simpa [e, Nat.mod_lt] using this

@[simp] theorem wordOf_byteOf (w : Word) : wordOf (byteOf w) = w := word_ext fun i => byteOf_wordOf _ i

@[simp] theorem byteOf_xor (a b : Word) (i : Fin 8) : byteOf (a ^^^ b) i = byteOf a i ^^^ byteOf b i := by
  simp [byteOf, BitVec.extractLsb'_xor]

/-- Two 512-bit values with the same eight words are equal. -/
theorem wide_ext {A B : Wide} (h : ∀ j : Fin 8, A[j] = B[j]) : A = B :=
  Vector.ext fun i hi => h ⟨i, hi⟩

@[simp] theorem xorWide_getElem (X Y : Wide) (j : Nat) (hj : j < 8) : (xorWide X Y)[j] = X[j] ^^^ Y[j] := by
  simp [xorWide]

@[simp] theorem deser_getElem (b : Vector Byte 64) (j : Nat) (hj : j < 8) :
    (deser b)[j] = wordOf fun i : Fin 8 => b[8 * j + i.val] := by
  simp [deser]

@[simp] theorem ser_getElem (A : Wide) (k : Nat) (hk : k < 64) :
    (ser A)[k] = byteOf A[k / 8] ⟨k % 8, Nat.mod_lt _ (by decide)⟩ := by
  simp [ser]

@[simp] theorem be64_length (v : Word) : (be64 v).length = 8 := by simp [be64]

/-- Two maps of words that carry ⊕ to ⊕ and agree on the 64 words of one bit are equal. -/
theorem xor_linear_ext (f g : Word → Word) (hf : ∀ a b, f (a ^^^ b) = f a ^^^ f b)
    (hg : ∀ a b, g (a ^^^ b) = g a ^^^ g b)
    (h : ∀ k : Fin 64, f (BitVec.twoPow 64 k.val) = g (BitVec.twoPow 64 k.val)) (w : Word) : f w = g w := by
  have z : ∀ f : Word → Word, (∀ a b, f (a ^^^ b) = f a ^^^ f b) → f 0 = 0 := by
    intro f hf
    have := hf 0 0
    simpa using this
  have key : ∀ m, m ≤ 64 → ∀ w : Word, w.toNat < 2 ^ m → f w = g w := by
    intro m
    induction m with
    | zero =>
      intro _ w hw
      have : w = 0 := BitVec.eq_of_toNat_eq (by simpa using hw)
      rw [this, z f hf, z g hg]
    | succ m ih =>
      intro hm w hw
      have tp : (BitVec.twoPow 64 m).toNat = 2 ^ m := by
        rw [BitVec.toNat_twoPow]; exact Nat.mod_eq_of_lt (Nat.pow_lt_pow_right (by decide) (by omega))
      by_cases hb : w.toNat < 2 ^ m
      · exact ih (by omega) w hb
      · have e : w = (w ^^^ BitVec.twoPow 64 m) ^^^ BitVec.twoPow 64 m := by
          rw [BitVec.xor_assoc]; simp
        have lt : (w ^^^ BitVec.twoPow 64 m).toNat < 2 ^ m := by
          rw [BitVec.toNat_xor, tp]
          apply Nat.lt_of_testBit m
          · rw [Nat.testBit_xor, Nat.testBit_two_pow_self]
            have : w.toNat.testBit m = true := by
              rw [Nat.testBit_eq_decide_div_mod_eq]
              have : w.toNat / 2 ^ m = 1 := by
                apply Nat.div_eq_of_lt_le
                · omega
                · rw [Nat.pow_succ] at hw; omega
              simp [this]
            simp [this]
          · exact Nat.testBit_two_pow_self
          · intro j hj
            rw [Nat.testBit_xor, Nat.testBit_two_pow_of_ne (by omega),
              Nat.testBit_lt_two_pow (Nat.lt_of_lt_of_le hw (Nat.pow_le_pow_right (by decide) hj))]
            rfl
        rw [e, hf, hg, ih (by omega) _ lt, h ⟨m, by omega⟩]
  exact key 64 le_rfl w w.isLt

end Sys2Proof.Machine
end

