-- ==== Sys2Proof/Laws/Decode.lean ====
section
/-! SUPPORT. What the decoder can answer, said once (30_encoding.md R75). -/

namespace Sys2Proof

/-- The seven opcodes (R74). -/
def opcodes : List Byte := [0x00, 0x01, 0x10, 0x11, 0x20, 0x30, 0x40]

/-- A reserved field is used, or LEN has a value its opcode does not admit (R72, R73). -/
def misused (v : Word) : Prop :=
  rz1Field v ≠ 0 ∨ rz2Field v ≠ 0 ∨ (opcField v = 0x30 ∧ 64 < (lenField v).toNat) ∨
    (opcField v ≠ 0x30 ∧ lenField v ≠ 0)

theorem commandOf_eq_none_iff (opc : Byte) (len : BitVec 7) : commandOf opc len = none ↔ opc ∉ opcodes := by
  unfold commandOf
  simp only [opcodes, List.mem_cons, List.not_mem_nil, or_false, not_or]
  repeat' split
  all_goals simp_all

theorem commandOf_eq_some {opc : Byte} {len : BitVec 7} {i : Instr} (h : commandOf opc len = some i) :
    i.opcode = opc ∧ i.lenOperand = if opc = 0x30 then len else 0 := by
  unfold commandOf at h
  repeat' split at h
  all_goals (try cases h)
  all_goals subst_vars
  all_goals simp [Instr.opcode, Instr.lenOperand]

/-- The three answers of the decoder. -/
theorem decode_cases (v : Word) :
    (opcField v ∉ opcodes ∧ decode v = .illegal .illegalOpcode) ∨
    (opcField v ∈ opcodes ∧ misused v ∧ decode v = .illegal .reservedField) ∨
    (opcField v ∈ opcodes ∧ ¬ misused v ∧
      ∃ i, decode v = .cmd i ∧ i.opcode = opcField v ∧ i.lenOperand = lenField v) := by
  cases hc : commandOf (opcField v) (lenField v) with
  | none => exact .inl ⟨(commandOf_eq_none_iff _ _).mp hc, by simp only [decode, hc]⟩
  | some i =>
    have known : opcField v ∈ opcodes := by
      by_contra h
      rw [(commandOf_eq_none_iff _ (lenField v)).mpr h] at hc
      cases hc
    obtain ⟨ho, hl⟩ := commandOf_eq_some hc
    by_cases h1 : rz1Field v ≠ 0 ∨ rz2Field v ≠ 0
    · exact .inr (.inl ⟨known, h1.elim .inl fun h => .inr (.inl h), by simp only [decode, hc, if_pos h1]⟩)
    by_cases h2 : opcField v = 0x30 ∧ 64 < (lenField v).toNat
    · exact .inr (.inl ⟨known, .inr (.inr (.inl h2)), by simp only [decode, hc, if_neg h1, if_pos h2]⟩)
    by_cases h3 : opcField v ≠ 0x30 ∧ lenField v ≠ 0
    · exact .inr (.inl ⟨known, .inr (.inr (.inr h3)),
        by simp only [decode, hc, if_neg h1, if_neg h2, if_pos h3]⟩)
    · refine .inr (.inr ⟨known, ?_, i, by simp only [decode, hc, if_neg h1, if_neg h2, if_neg h3], ho, ?_⟩)
      · rintro (h | h | h | h)
        · exact h1 (.inl h)
        · exact h1 (.inr h)
        · exact h2 h
        · exact h3 h
      · rw [hl]
        split
        · rfl
        · next hne => exact (Classical.byContradiction fun h => h3 ⟨hne, fun e => h e.symm⟩)

/-- Two words with the same four fields are equal (R70). -/
theorem word_eq_of_fields {v w : Word} (h1 : opcField v = opcField w) (h2 : rz1Field v = rz1Field w)
    (h3 : lenField v = lenField w) (h4 : rz2Field v = rz2Field w) : v = w := by
  apply BitVec.eq_of_getLsbD_eq
  intro k hk
  have a := congrArg (BitVec.getLsbD · k) h1
  have b := congrArg (BitVec.getLsbD · (k - 8)) h2
  have l := congrArg (BitVec.getLsbD · (k - 16)) h3
  have d := congrArg (BitVec.getLsbD · (k - 23)) h4
  simp only [opcField, rz1Field, lenField, rz2Field, BitVec.getLsbD_extractLsb'] at a b l d
  by_cases k1 : k < 8
  · simpa [k1] using a
  by_cases k2 : k < 16
  · have e : 8 + (k - 8) = k := by omega
    have r : k - 8 < 8 := by omega
    simpa [e, r] using b
  by_cases k3 : k < 23
  · have e : 16 + (k - 16) = k := by omega
    have r : k - 16 < 7 := by omega
    simpa [e, r] using l
  · have e : 23 + (k - 23) = k := by omega
    have r : k - 23 < 41 := by omega
    simpa [e, r] using d

end Sys2Proof
end

