-- ==== Sys2Proof/Laws/State.lean ====
section
/-! SUPPORT. One lemma per field for each named update of State, so that no proof unfolds a record update. -/

namespace Sys2Proof.Machine

/-! `clearFlags` -/

@[simp] theorem clearFlags_h (s : State) : (clearFlags s).h = s.h := rfl
@[simp] theorem clearFlags_m (s : State) : (clearFlags s).m = s.m := rfl
@[simp] theorem clearFlags_buf (s : State) : (clearFlags s).buf = s.buf := rfl
@[simp] theorem clearFlags_off (s : State) : (clearFlags s).off = s.off := rfl
@[simp] theorem clearFlags_cnt (s : State) : (clearFlags s).cnt = s.cnt := rfl
@[simp] theorem clearFlags_fin (s : State) : (clearFlags s).fin = false := rfl
@[simp] theorem clearFlags_err (s : State) : (clearFlags s).err = false := rfl
@[simp] theorem clearFlags_ecause (s : State) : (clearFlags s).ecause = 0 := rfl
@[simp] theorem clearFlags_pending (s : State) : (clearFlags s).pending = s.pending := rfl
@[simp] theorem clearFlags_replies (s : State) : (clearFlags s).replies = s.replies := rfl
@[simp] theorem clearFlags_draws (s : State) : (clearFlags s).draws = s.draws := rfl

/-! `setFin` -/

@[simp] theorem setFin_h (s : State) : (setFin s).h = s.h := rfl
@[simp] theorem setFin_m (s : State) : (setFin s).m = s.m := rfl
@[simp] theorem setFin_buf (s : State) : (setFin s).buf = s.buf := rfl
@[simp] theorem setFin_off (s : State) : (setFin s).off = s.off := rfl
@[simp] theorem setFin_cnt (s : State) : (setFin s).cnt = s.cnt := rfl
@[simp] theorem setFin_fin (s : State) : (setFin s).fin = true := rfl
@[simp] theorem setFin_err (s : State) : (setFin s).err = s.err := rfl
@[simp] theorem setFin_ecause (s : State) : (setFin s).ecause = s.ecause := rfl
@[simp] theorem setFin_pending (s : State) : (setFin s).pending = s.pending := rfl
@[simp] theorem setFin_replies (s : State) : (setFin s).replies = s.replies := rfl
@[simp] theorem setFin_draws (s : State) : (setFin s).draws = s.draws := rfl

/-! `seed` -/

@[simp] theorem seed_h (s : State) : (seed s).h = Config.iv := rfl
@[simp] theorem seed_m (s : State) : (seed s).m = s.m := rfl
@[simp] theorem seed_buf (s : State) : (seed s).buf = s.buf := rfl
@[simp] theorem seed_off (s : State) : (seed s).off = 0 := rfl
@[simp] theorem seed_cnt (s : State) : (seed s).cnt = 0 := rfl
@[simp] theorem seed_fin (s : State) : (seed s).fin = false := rfl
@[simp] theorem seed_err (s : State) : (seed s).err = false := rfl
@[simp] theorem seed_ecause (s : State) : (seed s).ecause = 0 := rfl
@[simp] theorem seed_pending (s : State) : (seed s).pending = s.pending := rfl
@[simp] theorem seed_replies (s : State) : (seed s).replies = s.replies := rfl
@[simp] theorem seed_draws (s : State) : (seed s).draws = s.draws := rfl

/-! `hardReset` -/

@[simp] theorem hardReset_h (s : State) : (hardReset s).h = Config.iv := rfl
@[simp] theorem hardReset_m (s : State) : (hardReset s).m = drawnM s.draws := rfl
@[simp] theorem hardReset_buf (s : State) : (hardReset s).buf = drawnBuf s.draws := rfl
@[simp] theorem hardReset_off (s : State) : (hardReset s).off = 0 := rfl
@[simp] theorem hardReset_cnt (s : State) : (hardReset s).cnt = 0 := rfl
@[simp] theorem hardReset_fin (s : State) : (hardReset s).fin = false := rfl
@[simp] theorem hardReset_err (s : State) : (hardReset s).err = false := rfl
@[simp] theorem hardReset_ecause (s : State) : (hardReset s).ecause = 0 := rfl
@[simp] theorem hardReset_pending (s : State) : (hardReset s).pending = s.pending := rfl
@[simp] theorem hardReset_replies (s : State) : (hardReset s).replies = s.replies := rfl
@[simp] theorem hardReset_draws (s : State) : (hardReset s).draws = s.draws + 1 := rfl

/-! `writeM` -/

@[simp] theorem writeM_h (s : State) (j : Fin 8) (v : Word) : (writeM s j v).h = s.h := rfl
@[simp] theorem writeM_m (s : State) (j : Fin 8) (v : Word) : (writeM s j v).m = s.m.set j.val v := rfl
@[simp] theorem writeM_buf (s : State) (j : Fin 8) (v : Word) : (writeM s j v).buf = s.buf := rfl
@[simp] theorem writeM_off (s : State) (j : Fin 8) (v : Word) : (writeM s j v).off = s.off := rfl
@[simp] theorem writeM_cnt (s : State) (j : Fin 8) (v : Word) : (writeM s j v).cnt = s.cnt := rfl
@[simp] theorem writeM_fin (s : State) (j : Fin 8) (v : Word) : (writeM s j v).fin = s.fin := rfl
@[simp] theorem writeM_err (s : State) (j : Fin 8) (v : Word) : (writeM s j v).err = s.err := rfl
@[simp] theorem writeM_ecause (s : State) (j : Fin 8) (v : Word) : (writeM s j v).ecause = s.ecause := rfl
@[simp] theorem writeM_pending (s : State) (j : Fin 8) (v : Word) : (writeM s j v).pending = s.pending := rfl
@[simp] theorem writeM_replies (s : State) (j : Fin 8) (v : Word) : (writeM s j v).replies = s.replies := rfl
@[simp] theorem writeM_draws (s : State) (j : Fin 8) (v : Word) : (writeM s j v).draws = s.draws := rfl

/-! `reply` -/

@[simp] theorem reply_h (s : State) (v : Word) : (reply s v).h = s.h := rfl
@[simp] theorem reply_m (s : State) (v : Word) : (reply s v).m = s.m := rfl
@[simp] theorem reply_buf (s : State) (v : Word) : (reply s v).buf = s.buf := rfl
@[simp] theorem reply_off (s : State) (v : Word) : (reply s v).off = s.off := rfl
@[simp] theorem reply_cnt (s : State) (v : Word) : (reply s v).cnt = s.cnt := rfl
@[simp] theorem reply_fin (s : State) (v : Word) : (reply s v).fin = s.fin := rfl
@[simp] theorem reply_err (s : State) (v : Word) : (reply s v).err = s.err := rfl
@[simp] theorem reply_ecause (s : State) (v : Word) : (reply s v).ecause = s.ecause := rfl
@[simp] theorem reply_pending (s : State) (v : Word) : (reply s v).pending = s.pending := rfl
@[simp] theorem reply_replies (s : State) (v : Word) : (reply s v).replies = s.replies ++ [v] := rfl
@[simp] theorem reply_draws (s : State) (v : Word) : (reply s v).draws = s.draws := rfl

/-! `dropEvent` -/

@[simp] theorem dropEvent_h (s : State) : (dropEvent s).h = s.h := rfl
@[simp] theorem dropEvent_m (s : State) : (dropEvent s).m = s.m := rfl
@[simp] theorem dropEvent_buf (s : State) : (dropEvent s).buf = s.buf := rfl
@[simp] theorem dropEvent_off (s : State) : (dropEvent s).off = s.off := rfl
@[simp] theorem dropEvent_cnt (s : State) : (dropEvent s).cnt = s.cnt := rfl
@[simp] theorem dropEvent_fin (s : State) : (dropEvent s).fin = s.fin := rfl
@[simp] theorem dropEvent_err (s : State) : (dropEvent s).err = s.err := rfl
@[simp] theorem dropEvent_ecause (s : State) : (dropEvent s).ecause = s.ecause := rfl
@[simp] theorem dropEvent_pending (s : State) : (dropEvent s).pending = s.pending.tail := rfl
@[simp] theorem dropEvent_replies (s : State) : (dropEvent s).replies = s.replies := rfl
@[simp] theorem dropEvent_draws (s : State) : (dropEvent s).draws = s.draws := rfl

/-! `recordError` -/

@[simp] theorem recordError_h (c : Cause) (s : State) : (recordError c s).h = s.h := by
  unfold recordError; split <;> rfl
@[simp] theorem recordError_m (c : Cause) (s : State) : (recordError c s).m = s.m := by
  unfold recordError; split <;> rfl
@[simp] theorem recordError_buf (c : Cause) (s : State) : (recordError c s).buf = s.buf := by
  unfold recordError; split <;> rfl
@[simp] theorem recordError_off (c : Cause) (s : State) : (recordError c s).off = s.off := by
  unfold recordError; split <;> rfl
@[simp] theorem recordError_cnt (c : Cause) (s : State) : (recordError c s).cnt = s.cnt := by
  unfold recordError; split <;> rfl
@[simp] theorem recordError_fin (c : Cause) (s : State) : (recordError c s).fin = s.fin := by
  unfold recordError; split <;> rfl
@[simp] theorem recordError_pending (c : Cause) (s : State) : (recordError c s).pending = s.pending := by
  unfold recordError; split <;> rfl
@[simp] theorem recordError_replies (c : Cause) (s : State) : (recordError c s).replies = s.replies := by
  unfold recordError; split <;> rfl
@[simp] theorem recordError_draws (c : Cause) (s : State) : (recordError c s).draws = s.draws := by
  unfold recordError; split <;> rfl
@[simp] theorem recordError_err (c : Cause) (s : State) : (recordError c s).err = true := by
  unfold recordError; split
  · assumption
  · rfl
theorem recordError_ecause (c : Cause) (s : State) :
    (recordError c s).ecause = if s.err then s.ecause else c.code := by
  unfold recordError; split <;> rfl

/-- The record a rejection leaves, with the cause kept or set (R222). -/
theorem recordError_eq (c : Cause) (s : State) :
    recordError c s = { s with err := true, ecause := if s.err then s.ecause else c.code } := by
  unfold recordError
  split
  · next h => rw [← h]
  · rfl

/-! `absorbByte` leaves everything but H, BUF, OFF and CNT. -/

@[simp] theorem absorbByte_m (s : State) (x : Byte) : (absorbByte s x).m = s.m := by
  unfold absorbByte; dsimp only; split <;> rfl
@[simp] theorem absorbByte_fin (s : State) (x : Byte) : (absorbByte s x).fin = s.fin := by
  unfold absorbByte; dsimp only; split <;> rfl
@[simp] theorem absorbByte_err (s : State) (x : Byte) : (absorbByte s x).err = s.err := by
  unfold absorbByte; dsimp only; split <;> rfl
@[simp] theorem absorbByte_ecause (s : State) (x : Byte) : (absorbByte s x).ecause = s.ecause := by
  unfold absorbByte; dsimp only; split <;> rfl
@[simp] theorem absorbByte_pending (s : State) (x : Byte) : (absorbByte s x).pending = s.pending := by
  unfold absorbByte; dsimp only; split <;> rfl
@[simp] theorem absorbByte_replies (s : State) (x : Byte) : (absorbByte s x).replies = s.replies := by
  unfold absorbByte; dsimp only; split <;> rfl
@[simp] theorem absorbByte_draws (s : State) (x : Byte) : (absorbByte s x).draws = s.draws := by
  unfold absorbByte; dsimp only; split <;> rfl

/-! `absorbBytes` leaves everything but H, BUF, OFF and CNT. -/

@[simp] theorem absorbBytes_m (bs : List Byte) (s : State) : (absorbBytes bs s).m = s.m := by
  induction bs generalizing s with
  | nil => rfl
  | cons x bs ih => exact (ih (absorbByte s x)).trans (absorbByte_m s x)
@[simp] theorem absorbBytes_fin (bs : List Byte) (s : State) : (absorbBytes bs s).fin = s.fin := by
  induction bs generalizing s with
  | nil => rfl
  | cons x bs ih => exact (ih (absorbByte s x)).trans (absorbByte_fin s x)
@[simp] theorem absorbBytes_err (bs : List Byte) (s : State) : (absorbBytes bs s).err = s.err := by
  induction bs generalizing s with
  | nil => rfl
  | cons x bs ih => exact (ih (absorbByte s x)).trans (absorbByte_err s x)
@[simp] theorem absorbBytes_ecause (bs : List Byte) (s : State) : (absorbBytes bs s).ecause = s.ecause := by
  induction bs generalizing s with
  | nil => rfl
  | cons x bs ih => exact (ih (absorbByte s x)).trans (absorbByte_ecause s x)
@[simp] theorem absorbBytes_pending (bs : List Byte) (s : State) : (absorbBytes bs s).pending = s.pending := by
  induction bs generalizing s with
  | nil => rfl
  | cons x bs ih => exact (ih (absorbByte s x)).trans (absorbByte_pending s x)
@[simp] theorem absorbBytes_replies (bs : List Byte) (s : State) : (absorbBytes bs s).replies = s.replies := by
  induction bs generalizing s with
  | nil => rfl
  | cons x bs ih => exact (ih (absorbByte s x)).trans (absorbByte_replies s x)
@[simp] theorem absorbBytes_draws (bs : List Byte) (s : State) : (absorbBytes bs s).draws = s.draws := by
  induction bs generalizing s with
  | nil => rfl
  | cons x bs ih => exact (ih (absorbByte s x)).trans (absorbByte_draws s x)

/-- Taking the oldest event off a list that begins with it. -/
theorem dropEvent_of_pending (s : State) (e : HostEvent) (rest : List HostEvent) (h : s.pending = e :: rest) :
    dropEvent s = { s with pending := rest } := by
  simp [dropEvent, h]

end Sys2Proof.Machine
end

