-- ==== Sys2Proof/Laws/Ops.lean ====
section
/-! SUPPORT. What each shared operation can do, said once: AbsorbByte, the absorption of a string that does not fill
the buffer and of one that fills it exactly, the window's slots, and the rejection of a command. -/

namespace Sys2Proof.Machine

/-! The absorber step (42_absorber.md R160). -/

@[simp] theorem tailBytes_length (s : State) : (tailBytes s).length = s.off.val := by
  simp [tailBytes]

/-- With room left, AbsorbByte stores the byte and moves OFF. -/
theorem absorbByte_of_room (s : State) (x : Byte) (room : s.off.val + 1 < 64) :
    absorbByte s x = { s with buf := s.buf.set s.off.val x, off := ⟨s.off.val + 1, room⟩ } := by
  simp [absorbByte, room]

/-- With one byte missing, AbsorbByte compresses the block and counts it. -/
theorem absorbByte_of_full (s : State) (x : Byte) (full : s.off.val + 1 = 64) :
    absorbByte s x = { s with buf := s.buf.set s.off.val x, h := cf s.h (deser (s.buf.set s.off.val x)),
                              cnt := s.cnt + 1, off := 0 } := by
  have : ¬ s.off.val + 1 < 64 := by omega
  simp [absorbByte, this]

/-- Writing byte `i` of a buffer and taking the first `i + 1` bytes appends the byte. -/
theorem take_set_succ (b : Vector Byte 64) (i : Nat) (hi : i < 64) (x : Byte) :
    (b.set i x).toList.take (i + 1) = b.toList.take i ++ [x] := by
  rw [Vector.toList_set, List.take_set, List.take_add_one, List.set_append_right _ _ (by simp)]
  simp [hi, Nat.min_eq_left (Nat.le_of_lt hi)]

/-- The tail after a byte that does not fill the buffer. -/
theorem tailBytes_absorbByte (s : State) (x : Byte) (room : s.off.val + 1 < 64) :
    tailBytes (absorbByte s x) = tailBytes s ++ [x] := by
  rw [absorbByte_of_room s x room]
  exact take_set_succ s.buf s.off.val s.off.isLt x

/-- The block of a whole buffer is its deserialization. -/
theorem blockOf_toList (b : Vector Byte 64) : blockOf b.toList = deser b := by
  have : (Vector.ofFn fun k : Fin 64 => b.toList.getD k.val 0) = b := by
    ext i hi
    simp
  rw [blockOf, this]

/-- The block compressed when a byte fills the buffer: the tail and that byte. -/
theorem absorbByte_h_of_full (s : State) (x : Byte) (full : s.off.val + 1 = 64) :
    (absorbByte s x).h = cf s.h (blockOf (tailBytes s ++ [x])) := by
  rw [absorbByte_of_full s x full, tailBytes, ← take_set_succ s.buf s.off.val s.off.isLt x, full,
    List.take_of_length_le (by simp), blockOf_toList]

/-! The words of the compression function and of the output transform (R140, R181). -/

theorem cf_getElem (h b : Wide) (j : Nat) (hj : j < 8) :
    (cf h b)[j] = h[j] ^^^ (perm .P (xorWide h b))[j] ^^^ (perm .Q b)[j] := by
  simp [cf]

theorem outputTransform_getElem (x : Wide) (j : Nat) (hj : j < 8) :
    (outputTransform x)[j] = x[j] ^^^ (perm .P x)[j] := by
  simp [outputTransform]

/-! Strings (R161). -/

@[simp] theorem absorbBytes_nil (s : State) : absorbBytes [] s = s := rfl

theorem absorbBytes_cons (x : Byte) (bs : List Byte) (s : State) :
    absorbBytes (x :: bs) s = absorbBytes bs (absorbByte s x) := rfl

theorem absorbBytes_concat (bs : List Byte) (x : Byte) (s : State) :
    absorbBytes (bs ++ [x]) s = absorbByte (absorbBytes bs s) x := by
  simp [absorbBytes]

/-- A string that leaves room in the buffer: no compression, the bytes go to the tail, and only they are written. -/
theorem absorbBytes_of_room (bs : List Byte) (s : State) (room : s.off.val + bs.length < 64) :
    (absorbBytes bs s).h = s.h ∧ (absorbBytes bs s).cnt = s.cnt ∧
    (absorbBytes bs s).off.val = s.off.val + bs.length ∧
    tailBytes (absorbBytes bs s) = tailBytes s ++ bs ∧
    ∀ k (hk : k < 64), k < s.off.val ∨ s.off.val + bs.length ≤ k → (absorbBytes bs s).buf[k] = s.buf[k] := by
  induction bs generalizing s with
  | nil => simp
  | cons x bs ih =>
    have room1 : s.off.val + 1 < 64 := by simp only [List.length_cons] at room; omega
    have e := absorbByte_of_room s x room1
    have r2 : (absorbByte s x).off.val + bs.length < 64 := by
      rw [e]; simp only [List.length_cons] at room; simp only; omega
    obtain ⟨h1, h2, h3, h4, h5⟩ := ih (absorbByte s x) r2
    rw [absorbBytes_cons]
    refine ⟨by rw [h1, e], by rw [h2, e], ?_, ?_, ?_⟩
    · rw [h3, e]; simp only [List.length_cons]; omega
    · rw [h4, tailBytes_absorbByte s x room1, List.append_assoc]; rfl
    · intro k hk hrange
      simp only [List.length_cons] at hrange
      rw [h5 k hk (by rw [e]; simp only; omega), e]
      exact Vector.getElem_set_ne s.off.isLt _ (by omega)

/-- A non-empty string that fills the buffer exactly: one compression, of the tail and the string. -/
theorem absorbBytes_of_exact (bs : List Byte) (s : State) (ne : bs ≠ []) (exact : s.off.val + bs.length = 64) :
    (absorbBytes bs s).h = cf s.h (blockOf (tailBytes s ++ bs)) ∧ (absorbBytes bs s).cnt = s.cnt + 1 ∧
    (absorbBytes bs s).off = 0 ∧ (absorbBytes bs s).buf.toList = tailBytes s ++ bs := by
  obtain ⟨init, x, rfl⟩ := List.eq_nil_or_concat' bs |>.resolve_left ne
  rw [List.length_append, List.length_singleton] at exact
  obtain ⟨h1, h2, h3, h4, -⟩ := absorbBytes_of_room init s (by omega)
  have full : (absorbBytes init s).off.val + 1 = 64 := by omega
  rw [absorbBytes_concat]
  refine ⟨?_, ?_, ?_, ?_⟩
  · rw [absorbByte_h_of_full _ _ full, h1, h4, List.append_assoc]
  · rw [absorbByte_of_full _ _ full, ← h2]
  · rw [absorbByte_of_full _ _ full]
  · rw [absorbByte_of_full _ _ full, ← List.append_assoc, ← h4, tailBytes,
      ← take_set_succ _ _ (absorbBytes init s).off.isLt x, full]
    exact (List.take_of_length_le (by simp)).symm

/-! FINAL leaves everything but H, BUF, OFF, CNT and FIN (43_finalizer.md R183). -/

@[simp] theorem finalize_m (s : State) : (finalize s).m = s.m := by
  simp [finalize]
@[simp] theorem finalize_err (s : State) : (finalize s).err = s.err := by
  simp [finalize]
@[simp] theorem finalize_ecause (s : State) : (finalize s).ecause = s.ecause := by
  simp [finalize]
@[simp] theorem finalize_pending (s : State) : (finalize s).pending = s.pending := by
  simp [finalize]
@[simp] theorem finalize_replies (s : State) : (finalize s).replies = s.replies := by
  simp [finalize]
@[simp] theorem finalize_draws (s : State) : (finalize s).draws = s.draws := by
  simp [finalize]
@[simp] theorem finalize_fin (s : State) : (finalize s).fin = true := rfl

/-! The operand of ABSORB (30_encoding.md R72). -/

/-- The operand is the first bytes of ser(M). -/
theorem absorbOperand_eq (s : State) (n : BitVec 7) : absorbOperand s n = (ser s.m).toList.take n.toNat := by
  unfold absorbOperand
  apply List.ext_getElem
  · simp
  · intro i h1 h2
    simp [mbyte]

theorem absorbOperand_length (s : State) (n : BitVec 7) (legal : n.toNat ≤ 64) :
    (absorbOperand s n).length = n.toNat := by
  simp [absorbOperand_eq, legal]

/-! The window (20_memory.md R50, R51). -/

/-- An aligned 8-byte access at slot `k` lands on slot `k`. -/
@[simp] theorem locate_slot (k : Fin 32) : locate (8 * (k.val : Int)) 8 = .slot k := by
  have h : (8 : Nat) = 8 ∧ 0 ≤ 8 * (k.val : Int) ∧ 8 * (k.val : Int) < 256 ∧ 8 * (k.val : Int) % 8 = 0 :=
    ⟨rfl, by omega, by omega, by omega⟩
  unfold locate
  rw [dif_pos h]
  congr 1
  apply Fin.ext
  simp only
  omega

/-- Where any other access lands. -/
theorem locate_of_not_slot {offset : Int} {size : Nat}
    (h : ¬ (size = 8 ∧ 0 ≤ offset ∧ offset < 256 ∧ offset % 8 = 0)) :
    locate offset size = if offset + size ≤ 0 ∨ 256 ≤ offset then .outside else .unmodelled := by
  unfold locate
  rw [dif_neg h]

/-- An access that lands on a slot is the aligned 8-byte access at that slot. -/
theorem eq_of_locate_slot {offset : Int} {size : Nat} {k : Fin 32} (h : locate offset size = .slot k) :
    size = 8 ∧ offset = 8 * (k.val : Int) := by
  unfold locate at h
  split at h
  · next c =>
    cases h
    refine ⟨c.1, ?_⟩
    simp only
    omega
  · split at h <;> cases h

@[simp] theorem slotOf_h (j : Fin 8) : slotOf ⟨8 + j.val, by omega⟩ = .h j := by
  revert j; decide

@[simp] theorem slotOf_m (j : Fin 8) : slotOf ⟨16 + j.val, by omega⟩ = .m j := by
  revert j; decide

/-! The guard on FIN (60_exceptions.md R221). -/

theorem unlessFinal_of_final (s : State) (f : State → State) (h : s.fin = true) :
    unlessFinal s f = .next (recordError .inputAfterFinal s) := by
  simp [unlessFinal, cmdError, h]

theorem unlessFinal_of_open (s : State) (f : State → State) (h : s.fin = false) : unlessFinal s f = .next (f s) := by
  simp [unlessFinal, h]

end Sys2Proof.Machine
end

