-- ==== Sys2Proof/Laws/Hash.lean ====
section
/-! SUPPORT. The blocks of a string and the chaining value after them: what the definitions of Safety.lean do. -/

namespace Sys2Proof.Machine

/-- The block of a string is made of its first 64 bytes. -/
theorem blockOf_take (l : List Byte) : blockOf (l.take 64) = blockOf l := by
  have : (Vector.ofFn fun k : Fin 64 => (l.take 64).getD k.val 0) = Vector.ofFn fun k : Fin 64 => l.getD k.val 0 := by
    ext i hi
    simp only [Vector.getElem_ofFn, List.getD_eq_getElem?_getD, List.getElem?_take, hi, if_true]
  rw [blockOf, this, blockOf]

/-- What follows 64 bytes or more does not change the block. -/
theorem blockOf_append (l p : List Byte) (h : 64 ≤ l.length) : blockOf (l ++ p) = blockOf l := by
  rw [← blockOf_take (l ++ p), List.take_append_of_le_length h, blockOf_take]

theorem wholeBlocks_of_short (l : List Byte) (h : l.length < 64) : wholeBlocks l = [] := by
  simp [wholeBlocks, Nat.div_eq_of_lt h]

theorem wholeBlocks_of_long (l : List Byte) (h : 64 ≤ l.length) :
    wholeBlocks l = blockOf l :: wholeBlocks (l.drop 64) := by
  have count : l.length / 64 = (l.drop 64).length / 64 + 1 := by
    rw [List.length_drop]
    omega
  have shift : ∀ c, l.drop (64 * (c + 1)) = (l.drop 64).drop (64 * c) := by
    intro c
    rw [List.drop_drop, Nat.mul_add, Nat.mul_one, Nat.add_comm]
  unfold wholeBlocks
  rw [count, List.range_succ_eq_map, List.map_cons, List.map_map, Nat.mul_zero, List.drop_zero]
  simp only [Function.comp_def, Nat.succ_eq_add_one, shift]

theorem leftover_of_short (l : List Byte) (h : l.length < 64) : leftover l = l := by
  simp [leftover, Nat.div_eq_of_lt h]

theorem leftover_of_long (l : List Byte) (h : 64 ≤ l.length) : leftover l = leftover (l.drop 64) := by
  have e : 64 * (l.length / 64) = 64 + 64 * ((l.length - 64) / 64) := by omega
  unfold leftover
  rw [List.drop_drop, List.length_drop, e]

theorem chain_of_short (x : Wide) (l : List Byte) (h : l.length < 64) : chain x l = x := by
  rw [chain, wholeBlocks_of_short l h, List.foldl_nil]

theorem chain_of_long (x : Wide) (l : List Byte) (h : 64 ≤ l.length) :
    chain x l = chain (cf x (blockOf l)) (l.drop 64) := by
  rw [chain, wholeBlocks_of_long l h, List.foldl_cons, ← chain]

/-- The padding has the length that fills one or two blocks (43_finalizer.md R180). -/
theorem pad_length (l : Nat) (cnt : Word) (h : l < 64) : (pad l cnt).length = 64 * padBlocks l - l := by
  simp only [pad, List.length_cons, List.length_append, List.length_replicate, be64_length]
  unfold padBlocks Config.padThreshold
  split <;> omega

end Sys2Proof.Machine
end

