-- ==== Sys2Proof/Laws/PerInstr.lean ====
section
/-! SUPPORT. What is shown of every command one by one: the fields of its word (30_encoding.md R70, R74). -/

namespace Sys2Proof.Laws.EncodedFields

/-- The word of `i` holds its opcode and its LEN, and zero in both reserved fields. -/
def Statement (i : Instr) : Prop :=
  opcField (encode i) = i.opcode ∧ rz1Field (encode i) = 0 ∧ lenField (encode i) = i.lenOperand ∧
    rz2Field (encode i) = 0

theorem nop : Statement .nop := by unfold Statement; decide
theorem init : Statement .init := by unfold Statement; decide
theorem permp : Statement .permp := by unfold Statement; decide
theorem permq : Statement .permq := by unfold Statement; decide
theorem compress : Statement .compress := by unfold Statement; decide
theorem absorb (len : BitVec 7) : Statement (.absorb len) := by
  unfold Statement
  revert len
  decide +kernel
theorem final : Statement .final := by unfold Statement; decide

end Sys2Proof.Laws.EncodedFields
end

