-- ==== Sys2Proof/Laws/Step.lean ====
section
/-! SUPPORT. What a command, an event and a step can do, said once: every invariant is derived from these. -/

namespace Sys2Proof.Machine

/-- What a command can do when it answers a next state: the effect of its rule, or the record of a rejection. -/
theorem exec_cases {i : Instr} {s t : State} (h : exec i s = .next t) :
    (i = .nop ∧ t = s) ∨ (i = .init ∧ t = seed s) ∨
    (i = .permp ∧ t = { s with m := perm .P s.m }) ∨ (i = .permq ∧ t = { s with m := perm .Q s.m }) ∨
    (i = .compress ∧ s.fin = false ∧ t = { s with h := cf s.h s.m }) ∨
    (∃ n, i = .absorb n ∧ n.toNat ≤ 64 ∧ s.fin = false ∧ t = absorbBytes (absorbOperand s n) s) ∨
    (i = .final ∧ s.fin = false ∧ t = finalize s) ∨
    (∃ c, t = recordError c s ∧ (i = .compress ∨ (∃ n, i = .absorb n) ∨ i = .final)) := by
  cases i with
  | nop => cases h; exact .inl ⟨rfl, rfl⟩
  | init => cases h; exact .inr (.inl ⟨rfl, rfl⟩)
  | permp => cases h; exact .inr (.inr (.inl ⟨rfl, rfl⟩))
  | permq => cases h; exact .inr (.inr (.inr (.inl ⟨rfl, rfl⟩)))
  | compress =>
    cases f : s.fin <;> simp only [exec, execCompress, unlessFinal, f, cmdError] at h <;> cases h
    · simp
    · exact .inr (.inr (.inr (.inr (.inr (.inr (.inr ⟨_, rfl, .inl rfl⟩))))))
  | absorb n =>
    by_cases big : 64 < n.toNat
    · simp only [exec, execAbsorb, big, cmdError, if_true] at h
      cases h
      exact .inr (.inr (.inr (.inr (.inr (.inr (.inr ⟨_, rfl, .inr (.inl ⟨n, rfl⟩)⟩))))))
    · cases f : s.fin <;> simp only [exec, execAbsorb, big, unlessFinal, f, cmdError, if_false] at h <;> cases h
      · exact .inr (.inr (.inr (.inr (.inr (.inl ⟨n, rfl, by omega, rfl, rfl⟩)))))
      · exact .inr (.inr (.inr (.inr (.inr (.inr (.inr ⟨_, rfl, .inr (.inl ⟨n, rfl⟩)⟩))))))
  | final =>
    cases f : s.fin <;> simp only [exec, execFinal, unlessFinal, f, cmdError] at h <;> cases h
    · simp
    · exact .inr (.inr (.inr (.inr (.inr (.inr (.inr ⟨_, rfl, .inr (.inr rfl)⟩))))))

/-- What taking an event can do when it answers a next state. -/
theorem takeEvent_cases {e : HostEvent} {s t : State} (h : takeEvent e s = .next t) :
    (∃ v, t = reply s v) ∨ (e = .reset ∧ t = hardReset s) ∨ (writesM e = true ∧ ∃ j v, t = writeM s j v) ∨
    t = s ∨ (∃ c, t = recordError c s) ∨ (∃ i, commandOfEvent e = some i ∧ exec i s = .next t) := by
  cases e with
  | read off size =>
    cases l : locate off size <;> simp only [takeEvent, l] at h <;> cases h
    exact .inl ⟨_, rfl⟩
  | write off size v =>
    cases l : locate off size with
    | slot k =>
      simp only [takeEvent, l, writeSlot] at h
      cases sl : slotOf k <;> simp only [sl] at h
      · cases d : decode v <;> simp only [issue, d] at h
        · refine .inr (.inr (.inr (.inr (.inr ⟨_, ?_, h⟩))))
          simp only [commandOfEvent, l, sl, d, if_true]
        · cases h; exact .inr (.inr (.inr (.inr (.inl ⟨_, rfl⟩))))
      case m j =>
        cases h
        refine .inr (.inr (.inl ⟨?_, j, v, rfl⟩))
        simp only [writesM, l, sl]
      all_goals cases h; exact .inr (.inr (.inr (.inl rfl)))
    | unmodelled => simp only [takeEvent, l] at h; cases h
    | outside => simp only [takeEvent, l] at h; cases h
  | reset => cases h; exact .inr (.inl ⟨rfl, rfl⟩)
  | secondHost => cases h
  | resetInsideCommand => cases h

/-- What a step can do when it answers a next state: nothing, or taking the oldest event. -/
theorem step_cases {s t : State} (h : step s = .next t) :
    (s.pending = [] ∧ t = s) ∨ ∃ e rest, s.pending = e :: rest ∧ takeEvent e (dropEvent s) = .next t := by
  unfold step at h
  split at h
  · next hp => cases h; exact .inl ⟨hp, rfl⟩
  · next e rest hp => exact .inr ⟨e, rest, hp, h⟩

/-- A step with an event pending takes it. -/
theorem step_of_pending (s : State) (e : HostEvent) (rest : List HostEvent) (h : s.pending = e :: rest) :
    step s = takeEvent e { s with pending := rest } := by
  rw [← dropEvent_of_pending s e rest h]
  unfold step
  rw [h]

/-- A write of a command word to CMD issues it. -/
theorem takeEvent_commandWrite (v : Word) (s : State) : takeEvent (commandWrite v) s = issue v s := by
  rfl

end Sys2Proof.Machine
end

