-- ==== Sys2Proof/Tests/Slice0.lean ====
section
/-! SUPPORT. Tests. Every expected value is a vector of 95_test_vectors.md (its id in the comment) or written out from
the rule cited; and, for each obligation with hypotheses, a witness that meets them. -/

namespace Sys2Proof.Tests

open Sys2Proof Sys2Proof.Machine

-- One proof at a time: kernel evaluations of whole permutations side by side need several times the memory.
set_option Elab.async false

/-! Helpers: small states. -/

/-- The zero 512-bit value. -/
def zeroWide : Wide := #v[0, 0, 0, 0, 0, 0, 0, 0]

/-- The block register with V1's 32 message bytes and 32 zero bytes. -/
def blockV1 : Wide :=
  #v[0x346e80880ecc9e84, 0xce6022cf3756a1df, 0x1756840ef7ea65c6, 0x44c99f6d3da31f2b, 0, 0, 0, 0]

/-- V1's message with its padding (FN1). -/
def paddedV1 : Wide :=
  #v[0x346e80880ecc9e84, 0xce6022cf3756a1df, 0x1756840ef7ea65c6, 0x44c99f6d3da31f2b, 0x8000000000000000, 0, 0, 1]

/-- A seeded state with M = 0 and nothing pending. -/
def seeded : State := { State.reset with m := zeroWide, buf := Vector.replicate 64 0xEE }

/-- The state after FINAL, as far as the flags go. -/
def finalized : State := { seeded with fin := true, cnt := 1 }

/-- A seeded state with `n` tail bytes 0x61. -/
def withTail (n : Fin 64) : State := { seeded with buf := Vector.replicate 64 0x61, off := n }

/-- The next state, if there is one. -/
def next? : Host.Outcome State Fault Refusal → Option State
  | .next t => some t
  | .fault _ | .refused _ => none

/-- STATUS after one command word is written to CMD. -/
def statusAfter (s : State) (v : Nat) : Option Word := (next? (step (s.withFetchWord 64 v))).map statusWord

/-- The reply to a read of the slot at byte offset `o`. -/
def replyAt (s : State) (o : Int) : Option (List Word) :=
  (next? (step { s with pending := [.read o 8] })).map (·.replies)

/-! Well-formedness (R72): the check refuses LEN above 64. -/

theorem test_wf_refuses_absorb_65 : (Instr.absorb 65).wf = false := by decide
theorem test_wf_refuses_absorb_127 : (Instr.absorb 127).wf = false := by decide
theorem test_wf_takes_absorb_0_and_64 : (Instr.absorb 0).wf = true ∧ (Instr.absorb 64).wf = true := by decide

/-! Decoding (R70, R74): words written out bit by bit, RZ2 (41 bits), LEN (7), RZ1 (8), OPC (8). -/

theorem test_decode_nop :
    decode (0b00000000000000000000000000000000000000000#41 ++ 0b0000000#7 ++ 0b00000000#8 ++ 0b00000000#8) = .cmd .nop := by
  decide
theorem test_decode_init :
    decode (0b00000000000000000000000000000000000000000#41 ++ 0b0000000#7 ++ 0b00000000#8 ++ 0b00000001#8) = .cmd .init := by
  decide
theorem test_decode_permp :
    decode (0b00000000000000000000000000000000000000000#41 ++ 0b0000000#7 ++ 0b00000000#8 ++ 0b00010000#8) = .cmd .permp := by
  decide
theorem test_decode_permq :
    decode (0b00000000000000000000000000000000000000000#41 ++ 0b0000000#7 ++ 0b00000000#8 ++ 0b00010001#8) = .cmd .permq := by
  decide
theorem test_decode_compress :
    decode (0b00000000000000000000000000000000000000000#41 ++ 0b0000000#7 ++ 0b00000000#8 ++ 0b00100000#8) =
      .cmd .compress := by decide
theorem test_decode_absorb_32 :
    decode (0b00000000000000000000000000000000000000000#41 ++ 0b0100000#7 ++ 0b00000000#8 ++ 0b00110000#8) =
      .cmd (.absorb 32) := by decide
theorem test_decode_absorb_64 :
    decode (0b00000000000000000000000000000000000000000#41 ++ 0b1000000#7 ++ 0b00000000#8 ++ 0b00110000#8) =
      .cmd (.absorb 64) := by decide
theorem test_decode_final :
    decode (0b00000000000000000000000000000000000000000#41 ++ 0b0000000#7 ++ 0b00000000#8 ++ 0b01000000#8) =
      .cmd .final := by decide

/-- E1 to E9: the causes of the words that decoding rejects, as STATUS shows them. -/
theorem test_rejected_words :
    [0x2, 0xff, 0x102, 0x10000, 0x410030, 0x100, 0x800000, 0x8000000000000001, 0x400040].map (statusAfter seeded) =
      [some 0x12, some 0x12, some 0x12, some 0x22, some 0x22, some 0x22, some 0x22, some 0x22, some 0x22] := by
  decide +kernel

/-- E10 to E13: the causes while FIN = 1. -/
theorem test_rejected_after_final :
    [0x10030, 0x410030, 0x20, 0x40].map (statusAfter finalized) = [some 0x33, some 0x23, some 0x33, some 0x33] := by
  decide +kernel

/-- E15: the first cause is kept. -/
theorem test_first_cause_kept : statusAfter { finalized with err := true, ecause := 3 } 0x2 = some 0x33 := by
  decide +kernel

/-! Field, S-box and tables (F1 to F17). -/

theorem test_gmul :
    gmul 0x02 0x80 = 0x1b ∧ gmul 0x03 0xff = 0x1a ∧ gmul 0x07 0x63 = 0x32 ∧ gmul 0x05 0x01 = 0x05 ∧
    gmul 0x04 0x80 = 0x36 ∧ gmul 0x02 0x57 = 0xae ∧ gmul 0x57 0x83 = 0xc1 := by decide +kernel
theorem test_sbox :
    sbox 0x00 = 0x63 ∧ sbox 0x01 = 0x7c ∧ sbox 0x53 = 0xed ∧ sbox 0x80 = 0xcd ∧ sbox 0xff = 0x16 ∧ sbox 0x9f = 0xdb ∧
    sbox 0xef = 0xdf := by decide +kernel
theorem test_t0_t4 :
    t0 0x00 = 0xc632f4a5f497a5c6 ∧ t0 0xff = 0x2c624e3a4e583a2c ∧ t4 0x00 = 0xf497a5c6c632f4a5 := by decide +kernel

/-! The steps of a round (P1, P2, P5, P6, P7). -/

theorem test_round_constants_of_round_9 :
    addRoundConstant .P 9 zeroWide =
      #v[0x0900000000000000, 0x1900000000000000, 0x2900000000000000, 0x3900000000000000,
         0x4900000000000000, 0x5900000000000000, 0x6900000000000000, 0x7900000000000000] ∧
    addRoundConstant .Q 9 zeroWide =
      #v[0xfffffffffffffff6, 0xffffffffffffffe6, 0xffffffffffffffd6, 0xffffffffffffffc6,
         0xffffffffffffffb6, 0xffffffffffffffa6, 0xffffffffffffff96, 0xffffffffffffff86] := by decide +kernel
/-- P6, columns 0 and 7 of SH_P(SEQ) and SH_Q(SEQ). -/
theorem test_shift_bytes :
    let seq : Wide := #v[0x0001020304050607, 0x08090a0b0c0d0e0f, 0x1011121314151617, 0x18191a1b1c1d1e1f,
      0x2021222324252627, 0x28292a2b2c2d2e2f, 0x3031323334353637, 0x38393a3b3c3d3e3f]
    (shiftBytes .P seq)[0] = 0x0009121b242d363f ∧ (shiftBytes .P seq)[7] = 0x38010a131c252e37 ∧
    (shiftBytes .Q seq)[0] = 0x08192a3b04152637 ∧ (shiftBytes .Q seq)[7] = 0x001122333c0d1e2f := by decide +kernel
theorem test_mix_column :
    mixColumn 0x0100000000000000 = 0x0207050305040302 ∧ mixColumn 0x0001000000000000 = 0x0202070503050403 ∧
    mixColumn 0x8000000000000000 = 0x1badb69bb6369b1b ∧ mixColumn 0x0101010101010101 = 0x0303030303030303 := by
  decide +kernel
/-- P1: round 0 of P on the zero state. -/
theorem test_round_0_of_P :
    permRound .P 0 zeroWide =
      #v[0xa5a5a5a5a5a5a5a5, 0xecd79e459e3745ec, 0x16bf0cc20cd8c216, 0x6b8b450c45220c6b,
         0x71a87c1b7c161b71, 0xc53555f55565f5c5, 0xd891ec6bec5f6bd8, 0xc13b5ff35f6df3c1] := by decide +kernel
/-- P2: round 0 of Q on the zero state. -/
theorem test_round_0_of_Q :
    permRound .Q 0 zeroWide =
      #v[0x6fee76ee2376bbbb, 0x1ad095d0b595f0f0, 0x3a3a3a3a3a3a3a3a, 0x73fa7afa337ab3b3,
         0xafa4b9a42cb93131, 0xc3e085e07c851919, 0x605c185c42180606, 0x2cf28bf29d8be4e4] := by decide +kernel

/-! One command each, as a step. -/

/-- CT1. -/
theorem test_nop_keeps_status : statusAfter (withTail 20) 0x0 = some 0x1400 := by decide +kernel

/-- CT2. -/
theorem test_init :
    (next? (step ({ finalized with err := true, ecause := 3, cnt := 5, m := blockV1 }.withFetchWord 64 0x1))).map
        (fun t => (t.h, t.m, t.cnt, statusWord t)) =
      some (#v[0, 0, 0, 0, 0, 0, 0, 0x100], blockV1, 0, 0) := by decide +kernel
/-- CT3. -/
theorem test_init_discards_the_tail : statusAfter (withTail 20) 0x1 = some 0 := by decide +kernel

/-- P3, with FIN = 1 (E14). -/
theorem test_permp :
    (next? (step (finalized.withFetchWord 64 0x10))).map (fun t => (t.m, statusWord t)) =
      some (#v[0xfe6b3ff6e1b1f889, 0xd83923035f680d90, 0x45b0638169572528, 0xa8492a5c88d027cd,
               0x65cd03a17ae9b3b3, 0xb8b0f1f98943379c, 0xc854967271555cd2, 0x8f2a2ed0b0516ced], 1) := by
  decide +kernel
/-- P4. -/
theorem test_permq :
    (next? (step (seeded.withFetchWord 64 0x11))).map (fun t => (t.m, statusWord t)) =
      some (#v[0x69a5292fde77ed9b, 0x522c8429d6d130e8, 0x3245ff920f0b4827, 0x9f983217fab8f761,
               0x2c9726fe50ead1d0, 0x1a1484339a7b1831, 0xbbcca90efd38ab9e, 0x880ded4f3e03f5f3], 0) := by
  decide +kernel

/-- FN1: the compression of V1's padded block from the IV; COMPRESS counts no block (PR6). -/
theorem test_compress :
    (next? (step ({ seeded with m := paddedV1 }.withFetchWord 64 0x20))).map (fun t => (t.h, t.cnt, statusWord t)) =
      some (#v[0xc4ec4c4a03f799f0, 0xfcf40ecbcacf1098, 0x4240d7cb3eff0ce9, 0xc6de0686c34b916a,
               0x1f8ec477567aeeaf, 0xbbfd12f65f162fc5, 0xcaeb3330e47d6707, 0x9bbcd34d47731359], 0, 0) := by
  decide +kernel

/-- AB3: 32 bytes on an empty buffer, no compression. -/
theorem test_absorb_32 :
    (next? (step ({ seeded with m := blockV1 }.withFetchWord 64 0x200030))).map
        (fun t => (t.h, t.cnt, statusWord t, tailBytes t)) =
      some (Config.iv, 0, 0x2000,
        [0x34, 0x6e, 0x80, 0x88, 0x0e, 0xcc, 0x9e, 0x84, 0xce, 0x60, 0x22, 0xcf, 0x37, 0x56, 0xa1, 0xdf,
         0x17, 0x56, 0x84, 0x0e, 0xf7, 0xea, 0x65, 0xc6, 0x44, 0xc9, 0x9f, 0x6d, 0x3d, 0xa3, 0x1f, 0x2b]) := by
  decide +kernel
/-- AB4: 40 bytes onto 40 buffered bytes, one compression after the 24th. -/
theorem test_absorb_across_a_block :
    (next? (step ({ withTail 40 with m := Vector.replicate 8 0x6161616161616161 }.withFetchWord 64 0x280030))).map
        (fun t => (t.cnt, statusWord t, tailBytes t)) = some (1, 0x1000, List.replicate 16 0x61) := by
  decide +kernel

/-- V1, FN1: FINAL after the 32 bytes of the source's known-answer vector compresses the padded block, once. -/
theorem test_final_of_the_known_answer :
    (next? (step ({ seeded with buf := ser blockV1, off := 32 }.withFetchWord 64 0x40))).map
        (fun t => (deser t.buf, t.cnt, statusWord t)) = some (paddedV1, 1, 1) := by decide +kernel
/-- V1, FN1: the output transform of the value that block's compression leaves (test_compress) gives the digest. -/
theorem test_output_transform_of_the_known_answer :
    outputTransform #v[0xc4ec4c4a03f799f0, 0xfcf40ecbcacf1098, 0x4240d7cb3eff0ce9, 0xc6de0686c34b916a,
        0x1f8ec477567aeeaf, 0xbbfd12f65f162fc5, 0xcaeb3330e47d6707, 0x9bbcd34d47731359] =
      #v[0x1f55a2943deb3ee2, 0xb0c31101d41d2a81, 0xd9304b2b74b2ecbd, 0x42a02a8ebfec70dd,
         0x137667957fb50e35, 0x67f28f459002f6c5, 0x2f80d46a0094ba46, 0x63b41b43aff53d77] := by decide +kernel
/-- PD1 to PD9. -/
theorem test_padding :
    pad 55 0 = [0x80, 0, 0, 0, 0, 0, 0, 0, 1] ∧
    pad 56 0 = 0x80 :: (List.replicate 63 0 ++ [0, 0, 0, 0, 0, 0, 0, 2]) ∧
    pad 63 0 = 0x80 :: (List.replicate 56 0 ++ [0, 0, 0, 0, 0, 0, 0, 2]) ∧
    pad 0 0xffffffffffffffff = 0x80 :: (List.replicate 55 0 ++ [0, 0, 0, 0, 0, 0, 0, 0]) ∧
    pad 55 0xfffffffffffffffe = [0x80, 0xff, 0xff, 0xff, 0xff, 0xff, 0xff, 0xff, 0xff] ∧
    pad 56 0xffffffffffffffff = 0x80 :: (List.replicate 63 0 ++ [0, 0, 0, 0, 0, 0, 0, 1]) := by decide +kernel

/-! The register window (RG1 to RG8; 20_memory.md R50). -/

/-- RG1, RG3 and the boundaries of the map: CMD, STATUS, CNT, the last reserved slot below H, H0, H7, M0, M7, the
first and the last reserved slot above M. -/
theorem test_window_reads :
    let s := { seeded with cnt := 9, off := 32, h := #v[10, 11, 12, 13, 14, 15, 16, 17], m := #v[20, 21, 22, 23, 24, 25, 26, 27] }
    [0x00, 0x08, 0x10, 0x18, 0x38, 0x40, 0x78, 0x80, 0xB8, 0xC0, 0xF8].map (replyAt s) =
      [some [0], some [0x2000], some [9], some [0], some [0], some [10], some [17], some [20], some [27], some [0],
       some [0]] := by decide +kernel
/-- RG4: writes to H0, CNT and STATUS are ignored. -/
theorem test_ignored_writes :
    [(0x40, 5), (0x10, 7), (0x08, 0xff)].map (fun p : Int × Word =>
      (next? (step { seeded with pending := [.write p.1 8 p.2] })).map fun t => (t.h, t.cnt, statusWord t)) =
      [some (Config.iv, 0, 0), some (Config.iv, 0, 0), some (Config.iv, 0, 0)] := by decide +kernel
/-- RG5. -/
theorem test_write_m3 :
    (next? (step { seeded with pending := [.write 0x98 8 0x0123456789abcdef] })).map (fun t => (t.m, replyAt t 0x98)) =
      some (#v[0, 0, 0, 0x0123456789abcdef, 0, 0, 0, 0], some [0x0123456789abcdef]) := by decide +kernel
/-- RG8. -/
theorem test_status_33 : statusWord { finalized with err := true, ecause := 3 } = 0x33 := by decide +kernel

/-! The text of a program (R79, R80). -/

theorem test_parse_absorb :
    parseLine "ABSORB 0x20   ; 0x0000000000200030".toList = some [.command (.absorb 32)] ∧
    parseLine "ABSORB 65".toList = none := by decide +kernel
theorem test_parse_wr_and_loadm :
    parseLine "WR M0, 0x6162000000000000".toList = some [.wr (.m 0) 0x6162000000000000] ∧
    parseLine "LOADM 61 62".toList = some (loadm [0x61, 0x62]) := by decide +kernel

/-! Witnesses: for each obligation with hypotheses, concrete values that meet all of them together. -/

/-- EncodeThenDecodeGivesTheCommand, at both ends of LEN. -/
theorem witness_EncodeThenDecode :
    Instr.wf (.absorb 0) = true ∧ Instr.wf (.absorb 64) = true ∧ Instr.wf .final = true := by decide

/-- DecodedWordIsTheEncoding. -/
theorem witness_DecodedWordIsTheEncoding : decode 0x400030 = .cmd (.absorb 64) := by decide

/-- DecodeSplitsEveryWord: a word of each kind, at the boundaries of LEN, RZ1 and RZ2. -/
theorem witness_DecodeSplitsEveryWord :
    decode 0x02 = .illegal .illegalOpcode ∧ decode 0x102 = .illegal .illegalOpcode ∧
    decode 0x8000 = .illegal .reservedField ∧ decode 0x800030 = .illegal .reservedField ∧
    decode 0x410030 = .illegal .reservedField ∧ decode 0x10040 = .illegal .reservedField ∧
    decode 0x000030 = .cmd (.absorb 0) ∧ decode 0x400030 = .cmd (.absorb 64) := by decide

/-- StepRunsTheDecodedCommand. -/
theorem witness_StepRunsTheDecodedCommand :
    { seeded with pending := [commandWrite 0x10, .reset] }.pending = commandWrite 0x10 :: [.reset] ∧
    decode 0x10 = .cmd .permp ∧ 0x10 < 2 ^ 64 ∧ decode (BitVec.ofNat 64 0x10) = .cmd .permp := by decide

/-- RejectedWordChangesOnlyErrAndEcause, with ERR clear and with ERR set. -/
theorem witness_RejectedWordChangesOnlyErrAndEcause :
    { seeded with pending := [commandWrite 0xff] }.pending = commandWrite 0xff :: [] ∧ seeded.err = false ∧
    { finalized with err := true, ecause := 3 }.err = true ∧ check 0xff seeded = some .illegalOpcode ∧
    check 0x10030 finalized = some .inputAfterFinal := by decide +kernel

/-- CheckReportsOneCauseInPriority and IssueFollowsCheck: each cause, the priorities, and an accepted word (E3, E10 to
E12, E14). -/
theorem witness_IssueFollowsCheck :
    check 0x102 finalized = some .illegalOpcode ∧ check 0x410030 finalized = some .reservedField ∧
    check 0x10030 finalized = some .inputAfterFinal ∧ check 0x20 finalized = some .inputAfterFinal ∧
    check 0x40 finalized = some .inputAfterFinal ∧ check 0x10 finalized = none ∧ check 0x40 seeded = none ∧
    { finalized with pending := [commandWrite 0x10] }.pending = commandWrite 0x10 :: [] := by decide +kernel

/-- InputAfterFinalIsRejected: FIN = 1, with LEN 64 and LEN 65. -/
theorem witness_InputAfterFinalIsRejected :
    finalized.fin = true ∧ (64 : BitVec 7).toNat ≤ 64 ∧ 64 < (65 : BitVec 7).toNat := by decide

/-- FirstCauseIsKept. -/
theorem witness_FirstCauseIsKept : seeded.err = false ∧ { seeded with err := true, ecause := 1 }.err = true := by decide

/-- ReadsReturnTheSlot and WritesReachOnlyCmdAndM: a slot for each clause, at the boundaries of its range. -/
theorem witness_SlotClauses :
    [0, 1, 2, 3, 7, 8, 15, 16, 23, 24, 31].map (fun k : Fin 32 => locate (8 * (k.val : Int)) 8) =
      [.slot 0, .slot 1, .slot 2, .slot 3, .slot 7, .slot 8, .slot 15, .slot 16, .slot 23, .slot 24, .slot 31] ∧
    [3, 7, 8, 15, 16, 23, 24, 31].map slotOf =
      [.reserved, .reserved, .h 0, .h 7, .m 0, .m 7, .reserved, .reserved] := by decide

/-- ReadsReturnTheSlot. -/
theorem witness_ReadsReturnTheSlot :
    { seeded with pending := [.read 0x78 8] }.pending = .read (8 * (((15 : Fin 32).val : Nat) : Int)) 8 :: [] := by decide

/-- WritesReachOnlyCmdAndM. -/
theorem witness_WritesReachOnlyCmdAndM :
    { seeded with pending := [.write 0x80 8 5] }.pending = .write (8 * (((16 : Fin 32).val : Nat) : Int)) 8 5 :: [] := by
  decide

/-- OtherAccessesAreRefused: a wrong size, a misaligned offset, and accesses over either end of the window. -/
theorem witness_OtherAccessesAreRefused :
    (∀ p ∈ ([(0, 4), (4, 8), (-4, 8), (249, 8), (252, 16), (255, 1)] : List (Int × Nat)),
      (p.2 ≠ 8 ∨ p.1 < 0 ∨ 248 < p.1 ∨ p.1 % 8 ≠ 0) ∧ 0 < p.1 + p.2 ∧ p.1 < 256) ∧
    { seeded with pending := [.read 4 8] }.pending = .read 4 8 :: [] ∧
    { seeded with pending := [.write 0 4 1] }.pending = .write 0 4 1 :: [] := by decide

/-- AccessOutsideTheWindowFaults: just below and just above the window. -/
theorem witness_AccessOutsideTheWindowFaults :
    ((-8 : Int) + (8 : Nat) ≤ 0) ∧ (256 : Int) ≤ 256 ∧
    { seeded with pending := [.read 256 8] }.pending = .read 256 8 :: [] ∧
    { seeded with pending := [.write (-8) 8 1] }.pending = .write (-8) 8 1 :: [] := by decide

/-- EventsAreTakenInOrder: two events pending, and none. -/
theorem witness_EventsAreTakenInOrder :
    (∃ t, step { seeded with pending := [.read 0x08 8, .reset] } = .next t) ∧ seeded.pending = [] := ⟨⟨_, rfl⟩, rfl⟩

/-- StatusLayout: a read and a write of STATUS. -/
theorem witness_StatusLayout :
    { seeded with pending := [.read 0x08 8] }.pending = .read 0x08 8 :: [] ∧
    { seeded with pending := [.write 0x08 8 0xff] }.pending = .write 0x08 8 0xff :: [] := by decide

/-- ModelledEventsComplete: the first and the last slot, and a reset. -/
theorem witness_ModelledEventsComplete :
    modelledEvent (.read 0 8) = true ∧ modelledEvent (.write 248 8 1) = true ∧ modelledEvent .reset = true := by decide

/-- ResetEventSeedsTheEngine. -/
theorem witness_ResetEventSeedsTheEngine : { finalized with pending := [.reset] }.pending = .reset :: [] := by decide

/-- CompressWritesOnlyH and FinalPadsAndTransforms: FIN = 0, with the tail lengths on both sides of the threshold. -/
theorem witness_FinalPadsAndTransforms :
    seeded.fin = false ∧ (withTail 0).off.val < 56 ∧ (withTail 55).off.val < 56 ∧ 56 ≤ (withTail 56).off.val ∧
    56 ≤ (withTail 63).off.val ∧ (withTail 55).fin = false ∧ (withTail 56).fin = false := by decide

/-- AbsorbFeedsTheBuffer: OFF + n on both sides of 64, and n at both ends of its range. -/
theorem witness_AbsorbFeedsTheBuffer :
    (withTail 20).fin = false ∧ (withTail 20).off.val + (43 : BitVec 7).toNat < 64 ∧
    64 ≤ (withTail 20).off.val + (44 : BitVec 7).toNat ∧ (withTail 63).off.val + (0 : BitVec 7).toNat < 64 ∧
    64 ≤ (withTail 0).off.val + (64 : BitVec 7).toNat ∧ (64 : BitVec 7).toNat ≤ 64 := by decide

/-- AbsorbByteStep: the last byte that does not fill the buffer, and the one that does. -/
theorem witness_AbsorbByteStep : (withTail 62).off.val + 1 < 64 ∧ (withTail 63).off.val = 63 := by decide

/-- AbsorbWholeBlockCompressesM. -/
theorem witness_AbsorbWholeBlockCompressesM : seeded.fin = false ∧ seeded.off = 0 := by decide

/-- PaddingShape. -/
theorem witness_PaddingShape : 0 < 64 ∧ 55 < 64 ∧ 56 < 64 ∧ 63 < 64 := by decide

/-- CounterWrapsToZero, for ABSORB and for FINAL with a short and with a long tail. -/
theorem witness_CounterWrapsToZero :
    let s := { withTail 40 with cnt := 0xFFFFFFFFFFFFFFFF }
    s.fin = false ∧ s.cnt = 0xFFFFFFFFFFFFFFFF ∧ (24 : BitVec 7).toNat ≤ 64 ∧
    64 ≤ s.off.val + (24 : BitVec 7).toNat ∧ s.off.val < 56 ∧
    { withTail 56 with cnt := 0xFFFFFFFFFFFFFFFF }.fin = false ∧ 56 ≤ (withTail 56).off.val := by decide

/-- StepKeepsTheInvariants: a state with FIN = 1 and ERR = 1, and a step of it. -/
theorem witness_StepKeepsTheInvariants :
    let s := { finalized with err := true, ecause := 3, pending := [.read 0 8] }
    EngineInv s ∧ ∃ t, step s = .next t := ⟨by unfold EngineInv; decide, _, rfl⟩

/-- DigestStaysUntilInitOrReset: FIN = 1 and an ABSORB, which is no INIT. -/
theorem witness_DigestStaysUntilInitOrReset :
    let s := { finalized with pending := [commandWrite 0x10030] }
    s.fin = true ∧ (∃ t, step s = .next t) ∧ ∀ e, s.pending.head? = some e → ¬ seeds e := by
  refine ⟨by decide, ⟨_, rfl⟩, fun e h => ?_⟩
  cases h
  unfold seeds
  decide

/-- OnlyFourCommandsWriteH: an INIT that changes H. -/
theorem witness_OnlyFourCommandsWriteH :
    let s := { seeded with h := zeroWide, pending := [commandWrite 0x1] }
    ∃ t, step s = .next t ∧ t.h ≠ s.h := ⟨_, rfl, by decide +kernel⟩

/-- OnlyPermAndHostWriteM: a host write that changes M. -/
theorem witness_OnlyPermAndHostWriteM :
    let s := { seeded with pending := [.write 0x98 8 1] }
    ∃ t, step s = .next t ∧ t.m ≠ s.m := ⟨_, rfl, by decide +kernel⟩

/-- CounterCountsAbsorbedBlocks: an ABSORB, a FINAL and a COMPRESS while FIN = 0, an ABSORB while FIN = 1. -/
theorem witness_CounterCountsAbsorbedBlocks :
    (¬ seeds (commandWrite 0x280030) ∧ ¬ seeds (commandWrite 0x40) ∧ ¬ seeds (commandWrite 0x20)) ∧
    commandOfEvent (commandWrite 0x280030) = some (.absorb 40) ∧ commandOfEvent (commandWrite 0x40) = some .final ∧
    commandOfEvent (commandWrite 0x20) = some .compress ∧
    (∃ t, exec (.absorb 40) (withTail 40) = .next t) ∧ (∃ t, exec .final (withTail 40) = .next t) ∧
    (∃ t, exec .compress (withTail 40) = .next t) ∧ ∃ t, exec (.absorb 40) finalized = .next t :=
  ⟨by unfold seeds; decide, by decide, by decide, by decide, ⟨_, rfl⟩, ⟨_, rfl⟩, ⟨_, rfl⟩, ⟨_, rfl⟩⟩

/-- CounterCountsAbsorbedBlocks: its step. -/
theorem witness_CounterCountsAbsorbedBlocks_step :
    ∃ t, step { withTail 40 with pending := [commandWrite 0x280030] } = .next t := ⟨_, rfl⟩

/-- ErrorIsSticky: ERR = 1 and a second rejected word. -/
theorem witness_ErrorIsSticky :
    let s := { seeded with err := true, ecause := 1, pending := [commandWrite 0x10000] }
    s.err = true ∧ (∃ t, step s = .next t) ∧ ∀ e, s.pending.head? = some e → ¬ seeds e := by
  refine ⟨by decide, ⟨_, rfl⟩, fun e h => ?_⟩
  cases h
  unfold seeds
  decide

/-- ErrorNeedsARejectedCommand: a rejected word, and an INIT that clears ERR. -/
theorem witness_ErrorNeedsARejectedCommand :
    (∃ t, step { seeded with pending := [commandWrite 0x2] } = .next t ∧ t.err ≠ seeded.err) ∧
    ∃ t, step { seeded with err := true, ecause := 1, pending := [commandWrite 0x1] } = .next t ∧ t.err ≠ true :=
  ⟨⟨_, rfl, by decide +kernel⟩, ⟨_, rfl, by decide +kernel⟩⟩

/-- FinChangesOnlyByFinalAndSeeding: a FINAL, and an INIT. -/
theorem witness_FinChangesOnlyByFinalAndSeeding :
    (∃ t, step { withTail 3 with pending := [commandWrite 0x40] } = .next t ∧ t.fin ≠ (withTail 3).fin) ∧
    ∃ t, step { finalized with pending := [commandWrite 0x1] } = .next t ∧ t.fin ≠ finalized.fin :=
  ⟨⟨_, rfl, by decide +kernel⟩, ⟨_, rfl, by decide +kernel⟩⟩

/-- BytesBeyondTheTailAreUnobservable: two different states with the same three tail bytes. -/
theorem witness_BytesBeyondTheTailAreUnobservable :
    let s := withTail 3
    let t := { withTail 3 with buf := s.buf.set 3 0x77 }
    s ≠ t ∧ SameButTail s t := ⟨by decide +kernel, rfl, by decide +kernel⟩

/-- InstancesShareNothing: the second of two instances takes a step. -/
theorem witness_InstancesShareNothing :
    let b : Board := [finalized, { seeded with pending := [.read 0x08 8] }]
    b[1]? = some { seeded with pending := [.read 0x08 8] } ∧ ∃ b', stepInstance 1 b = .next b' := ⟨rfl, _, rfl⟩

/-- RoundConstantOfP and RoundConstantOfQ: the first and the last round. -/
theorem witness_RoundConstants : 0 ≤ 9 ∧ 9 ≤ 9 := by decide

/-- SboxIsTheAlgebraicBijection: a byte with an inverse. -/
theorem witness_SboxIsTheAlgebraicBijection : (0x53 : Byte) ≠ 0 := by decide

/-- SplitAbsorbsAgree: "abcd" in one ABSORB, or "ab" and then "cd" after reloading M (V2, PR2). -/
theorem witness_SplitAbsorbsAgree :
    let s := { seeded with m := #v[0x6162636400000000, 0, 0, 0, 0, 0, 0, 0] }
    let m' : Wide := #v[0x6364000000000000, 0, 0, 0, 0, 0, 0, 0]
    s.fin = false ∧ (4 : BitVec 7).toNat = (2 : BitVec 7).toNat + (2 : BitVec 7).toNat ∧
    (4 : BitVec 7).toNat ≤ 64 ∧
    (ser m').toList.take (2 : BitVec 7).toNat =
      ((ser s.m).toList.drop (2 : BitVec 7).toNat).take (2 : BitVec 7).toNat ∧
    (∃ t, exec (.absorb 4) s = .next t) ∧
    ∃ u w, exec (.absorb 2) s = .next u ∧ exec (.absorb 2) { u with m := m' } = .next w :=
  ⟨by decide, by decide, by decide, by decide +kernel, ⟨_, rfl⟩, _, _, rfl, rfl⟩

/-- SessionComputesTheHash: the reset state is a seeded state (70_reset_and_hazards.md R251). -/
theorem witness_SessionComputesTheHash :
    State.reset.h = Config.iv ∧ State.reset.cnt = 0 ∧ State.reset.off = 0 ∧ State.reset.fin = false :=
  ⟨rfl, rfl, rfl, rfl⟩

/-- LoadmLoadsTheBlock, with a rest of the program behind it. -/
theorem witness_LoadmLoadsTheBlock :
    { seeded with pending := programEvents (loadm [0x61, 0x62]) ++ [HostEvent.reset] }.pending =
      programEvents (loadm [0x61, 0x62]) ++ [HostEvent.reset] := rfl

/-- HashExpansionReturnsTheDigest, with the message "a". -/
theorem witness_HashExpansionReturnsTheDigest :
    { finalized with pending := programEvents (hashProgram [0x61]) }.pending = programEvents (hashProgram [0x61]) := rfl

end Sys2Proof.Tests
end

