-- ==== Sys2Proof/Proofs/Scope.lean ====
section
/-! SUPPORT. Serialization and deserialization undo each other, and the block register is read through ser
(00_scope.md R12, 10_state.md R24, 20_memory.md R55). -/

namespace Sys2Proof.Machine

@[simp] theorem mbyte_eq_ser_getElem (s : State) (k : Fin 64) : mbyte s k = (ser s.m)[k] :=
  (ser_getElem s.m k k.isLt).symm

/-- Within column `j` the byte index `8j + i` splits back into column and row, so each column is rebuilt from its own
eight bytes. -/
@[simp] theorem deser_ser (A : Wide) : deser (ser A) = A := by
  apply wide_ext
  intro j
  have column (i : Fin 8) : (ser A)[8 * j.val + i.val] = byteOf A[j] i := by
    have hcol : (8 * j.val + i.val) / 8 = j.val := by omega
    have hrow : (8 * j.val + i.val) % 8 = i.val := by omega
    simp [hcol, hrow]
  calc (deser (ser A))[j] = wordOf fun i : Fin 8 => (ser A)[8 * j.val + i.val] := deser_getElem _ j j.isLt
    _ = wordOf (byteOf A[j]) := congrArg wordOf (funext column)
    _ = A[j] := wordOf_byteOf _

/-- Byte `k` is row `k % 8` of column `k / 8`, which `deser` took from index `8 * (k / 8) + k % 8`, that is `k`. -/
@[simp] theorem ser_deser (b : Vector Byte 64) : ser (deser b) = b := by
  apply Vector.ext
  intro k hk
  have index : 8 * (k / 8) + k % 8 = k := Nat.div_add_mod k 8
  calc (ser (deser b))[k] = byteOf (deser b)[k / 8] ⟨k % 8, Nat.mod_lt _ (by decide)⟩ := ser_getElem _ k hk
    _ = b[8 * (k / 8) + k % 8] := by rw [deser_getElem, byteOf_wordOf]
    _ = b[k] := by simp only [index]

/-- Settles O43: ser's bytes are its definition (R12), Mbyte reads through it (R24), and the two inverse directions are
`deser_ser` and `ser_deser`. -/
theorem serAndDeserAreInverse : Obligations.SerAndDeserAreInverse := by
  unfold Obligations.SerAndDeserAreInverse
  refine ⟨fun A k => ?_, mbyte_eq_ser_getElem, deser_ser, ser_deser⟩
  exact ser_getElem A k k.isLt

end Sys2Proof.Machine
end

