-- ==== Sys2Proof/Proofs/State.lean ====
section
/-! SUPPORT. What the engine's state keeps and what changes it (10_state.md): the effect of every host event said once
with its command and its check, the arithmetic of OFF and CNT under AbsorbByte, and the relation of two states that
differ beyond the tail; the statements about the state follow from these. -/

namespace Sys2Proof.Machine

/-! Accepted and rejected command words (30_encoding.md R76, 60_exceptions.md R221, R223). -/

/-- An ABSORB that was decoded has a legal LEN (R72). -/
theorem absorb_legal_of_decode {v : Word} {n : BitVec 7} (hd : decode v = .cmd (.absorb n)) : n.toNat ≤ 64 := by
  rcases decode_cases v with ⟨-, h⟩ | ⟨-, -, h⟩ | ⟨-, proper, i, h, hop, hlen⟩
  · rw [h] at hd; cases hd
  · rw [h] at hd; cases hd
  · rw [h] at hd
    cases hd
    by_contra big
    have hlen : n = lenField v := hlen
    exact proper (.inr (.inr (.inl ⟨hop.symm, by rw [← hlen]; omega⟩)))

/-- `check` of a word that decodes looks at FIN and at the three commands that take input (R223). -/
theorem check_of_decode_cmd {v : Word} {i : Instr} (hd : decode v = .cmd i) (s : State) :
    check v s = if s.fin ∧ (i.opcode = 0x20 ∨ i.opcode = 0x30 ∨ i.opcode = 0x40) then some .inputAfterFinal
      else none := by
  simp only [check, hd]

theorem check_of_decode_illegal {v : Word} {c : Cause} (hd : decode v = .illegal c) (s : State) :
    check v s = some c := by
  simp only [check, hd]

/-- Only FIN = 1 can reject a word that decodes. -/
theorem fin_of_check_of_decode {v : Word} {i : Instr} {c : Cause} {s : State} (hd : decode v = .cmd i)
    (hc : check v s = some c) : s.fin = true ∧ (i.opcode = 0x20 ∨ i.opcode = 0x30 ∨ i.opcode = 0x40) ∧
      c = .inputAfterFinal := by
  rw [check_of_decode_cmd hd] at hc
  split at hc
  · next late => cases hc; exact ⟨late.1, late.2, rfl⟩
  · cases hc

/-- FIN is 0 when a word of a command that takes input is accepted. -/
theorem fin_eq_false_of_check {v : Word} {i : Instr} {s : State} (hd : decode v = .cmd i) (hc : check v s = none)
    (input : i.opcode = 0x20 ∨ i.opcode = 0x30 ∨ i.opcode = 0x40) : s.fin = false := by
  rw [check_of_decode_cmd hd] at hc
  by_contra late
  rw [if_pos ⟨by simpa using late, input⟩] at hc
  cases hc

theorem issue_of_decode_cmd {v : Word} {i : Instr} (hd : decode v = .cmd i) (s : State) : issue v s = exec i s := by
  simp only [issue, hd]

/-- COMPRESS is a command under the check of FIN alone (R142). -/
theorem exec_compress (s : State) : exec .compress s = unlessFinal s fun s => { s with h := cf s.h s.m } := rfl

/-- ABSORB of a legal LEN is a command under the check of FIN alone (R162). -/
theorem exec_absorb_of_legal {n : BitVec 7} (legal : n.toNat ≤ 64) (s : State) :
    exec (.absorb n) s = unlessFinal s fun s => absorbBytes (absorbOperand s n) s := by
  have small : ¬ 64 < n.toNat := by omega
  simp only [exec, execAbsorb, small, if_false]

/-- A word that `check` rejects records its cause and does nothing else (R76, R220). -/
theorem issue_of_check_some {v : Word} {s : State} {c : Cause} (hc : check v s = some c) :
    issue v s = .next (recordError c s) := by
  cases hd : decode v with
  | illegal c' =>
    rw [check_of_decode_illegal hd] at hc
    cases hc
    simp only [issue, hd, cmdError]
  | cmd i =>
    obtain ⟨final, input, rfl⟩ := fin_of_check_of_decode hd hc
    rw [issue_of_decode_cmd hd]
    cases i with
    | compress => rw [exec_compress]; exact unlessFinal_of_final s _ final
    | absorb n =>
      rw [exec_absorb_of_legal (absorb_legal_of_decode hd)]
      exact unlessFinal_of_final s _ final
    | final => exact unlessFinal_of_final s _ final
    | nop | init | permp | permq => exact absurd input (by decide)

/-- The command of a CMD write is the command its word decodes to (R54, R76). -/
theorem commandOfEvent_commandWrite_of_cmd {v : Word} {i : Instr} (hd : decode v = .cmd i) :
    commandOfEvent (commandWrite v) = some i := by
  have slot : locate 0 8 = .slot 0 := locate_slot 0
  simp only [commandOfEvent, commandWrite, slot, show slotOf 0 = .cmd from rfl, hd, if_true]

theorem commandOfEvent_commandWrite_of_illegal {v : Word} {c : Cause} (hd : decode v = .illegal c) :
    commandOfEvent (commandWrite v) = none := by
  have slot : locate 0 8 = .slot 0 := locate_slot 0
  simp only [commandOfEvent, commandWrite, slot, show slotOf 0 = .cmd from rfl, hd, if_true]

/-- The one slot that is CMD is slot 0 (20_memory.md R50). -/
theorem eq_zero_of_slotOf_cmd {k : Fin 32} (h : slotOf k = .cmd) : k = 0 := by
  revert k; decide

/-! The effect of an event. -/

/-- What taking an event can make of a state, one constructor per rule: the event and, for a CMD write, whether its
word is accepted, beside the next state. -/
inductive EventEffect (e : HostEvent) (s : State) : State → Prop
  /-- A reset (R34, R250). -/
  | reset (he : e = .reset) : EventEffect e s (hardReset s)
  /-- A read (R53). -/
  | replied (v : Word) (hc : commandOfEvent e = none) : EventEffect e s (reply s v)
  /-- A write of M (R54). -/
  | stored (j : Fin 8) (v : Word) (hw : writesM e = true) (hc : commandOfEvent e = none) :
      EventEffect e s (writeM s j v)
  /-- A write that the window ignores (R54). -/
  | ignored (hc : commandOfEvent e = none) : EventEffect e s s
  /-- A rejected command word (R220). -/
  | rejected (v : Word) (c : Cause) (he : e = commandWrite v) (hc : check v s = some c) :
      EventEffect e s (recordError c s)
  /-- NOP (R200). -/
  | nop (hc : commandOfEvent e = some .nop) : EventEffect e s s
  /-- INIT (R201). -/
  | init (hc : commandOfEvent e = some .init) : EventEffect e s (seed s)
  /-- PERMP (R120). -/
  | permp (hc : commandOfEvent e = some .permp) : EventEffect e s { s with m := perm .P s.m }
  /-- PERMQ (R121). -/
  | permq (hc : commandOfEvent e = some .permq) : EventEffect e s { s with m := perm .Q s.m }
  /-- An accepted COMPRESS (R142). -/
  | compress (hc : commandOfEvent e = some .compress) (hfin : s.fin = false) :
      EventEffect e s { s with h := cf s.h s.m }
  /-- An accepted ABSORB (R162). -/
  | absorb (n : BitVec 7) (hc : commandOfEvent e = some (.absorb n)) (legal : n.toNat ≤ 64) (hfin : s.fin = false) :
      EventEffect e s (absorbBytes (absorbOperand s n) s)
  /-- An accepted FINAL (R183). -/
  | final (hc : commandOfEvent e = some .final) (hfin : s.fin = false) : EventEffect e s (finalize s)

/-- Issuing a word has the effect of a CMD write. -/
theorem effect_of_issue {v : Word} {s t : State} (h : issue v s = .next t) : EventEffect (commandWrite v) s t := by
  cases hc : check v s with
  | some c =>
    rw [issue_of_check_some hc] at h
    cases h
    exact .rejected v c rfl hc
  | none =>
    cases hd : decode v with
    | illegal c => rw [check_of_decode_illegal hd] at hc; cases hc
    | cmd i =>
      have command := commandOfEvent_commandWrite_of_cmd hd
      rw [issue_of_decode_cmd hd] at h
      cases i with
      | nop => cases h; exact .nop command
      | init => cases h; exact .init command
      | permp => cases h; exact .permp command
      | permq => cases h; exact .permq command
      | compress =>
        have hfin := fin_eq_false_of_check hd hc (by decide)
        rw [exec_compress, unlessFinal_of_open s _ hfin] at h
        cases h
        exact .compress command hfin
      | absorb n =>
        have legal := absorb_legal_of_decode hd
        have hfin := fin_eq_false_of_check hd hc (.inr (.inl rfl))
        rw [exec_absorb_of_legal legal, unlessFinal_of_open s _ hfin] at h
        cases h
        exact .absorb n command legal hfin
      | final =>
        have hfin := fin_eq_false_of_check hd hc (by decide)
        cases (unlessFinal_of_open s finalize hfin).symm.trans h
        exact .final command hfin

/-- Every event that is taken to a next state has one of the effects. -/
theorem effect_of_takeEvent {e : HostEvent} {s t : State} (h : takeEvent e s = .next t) : EventEffect e s t := by
  cases e with
  | read offset size =>
    cases hl : locate offset size <;> simp only [takeEvent, hl] at h <;> cases h
    exact .replied _ rfl
  | write offset size v =>
    cases hl : locate offset size with
    | unmodelled => simp only [takeEvent, hl] at h; cases h
    | outside => simp only [takeEvent, hl] at h; cases h
    | slot k =>
      simp only [takeEvent, hl, writeSlot] at h
      have other (hk : slotOf k ≠ .cmd) : commandOfEvent (.write offset size v) = none := by
        simp only [commandOfEvent, hl, hk, if_false]
      cases hk : slotOf k with
      | cmd =>
        simp only [hk] at h
        obtain ⟨rfl, rfl⟩ := eq_of_locate_slot hl
        rw [eq_zero_of_slotOf_cmd hk]
        exact effect_of_issue h
      | m j =>
        simp only [hk] at h
        cases h
        exact .stored j v (by simp only [writesM, hl, hk]) (other (by simp [hk]))
      | status | cnt | h | reserved =>
        simp only [hk] at h
        cases h
        exact .ignored (other (by simp [hk]))
  | reset => cases h; exact .reset rfl
  | secondHost => cases h
  | resetInsideCommand => cases h

/-- A step that changes the state has taken the first pending event. -/
theorem effect_of_step_ne {s t : State} (h : step s = .next t) (changed : t ≠ s) :
    ∃ e, s.pending.head? = some e ∧ EventEffect e (dropEvent s) t := by
  rcases step_cases h with ⟨-, rfl⟩ | ⟨e, rest, hp, taken⟩
  · exact absurd rfl changed
  · exact ⟨e, by rw [hp]; rfl, effect_of_takeEvent taken⟩

/-! OFF and CNT under AbsorbByte (42_absorber.md R160, R163). -/

/-- One byte moves OFF by one modulo 64, and counts one block when OFF comes to 64. -/
theorem absorbByte_off_cnt (s : State) (x : Byte) :
    (absorbByte s x).off.val = (s.off.val + 1) % 64 ∧
    (absorbByte s x).cnt = s.cnt + BitVec.ofNat 64 ((s.off.val + 1) / 64) := by
  by_cases room : s.off.val + 1 < 64
  · rw [absorbByte_of_room s x room]
    simp [Nat.mod_eq_of_lt room, Nat.div_eq_of_lt room]
  · have full : s.off.val + 1 = 64 := by omega
    rw [absorbByte_of_full s x full, full]
    simp

theorem absorbBytes_off (bs : List Byte) (s : State) :
    (absorbBytes bs s).off.val = (s.off.val + bs.length) % 64 := by
  induction bs generalizing s with
  | nil => simp [Nat.mod_eq_of_lt s.off.isLt]
  | cons x bs ih =>
    rw [absorbBytes_cons, ih, (absorbByte_off_cnt s x).1, List.length_cons]
    omega

theorem absorbBytes_cnt (bs : List Byte) (s : State) :
    (absorbBytes bs s).cnt = s.cnt + BitVec.ofNat 64 ((s.off.val + bs.length) / 64) := by
  induction bs generalizing s with
  | nil => simp [Nat.div_eq_of_lt s.off.isLt]
  | cons x bs ih =>
    obtain ⟨hoff, hcnt⟩ := absorbByte_off_cnt s x
    have blocks : (s.off.val + (bs.length + 1)) / 64 =
        (s.off.val + 1) / 64 + ((s.off.val + 1) % 64 + bs.length) / 64 := by omega
    rw [absorbBytes_cons, ih, hoff, hcnt, List.length_cons, blocks, BitVec.ofNat_add, BitVec.add_assoc]

/-- The tail and its padding are one or two whole blocks (43_finalizer.md R180). -/
theorem off_add_pad_length (s : State) :
    s.off.val + (pad s.off.val s.cnt).length = 64 * padBlocks s.off.val := by
  have whole : s.off.val ≤ 64 * padBlocks s.off.val := by
    unfold padBlocks
    split <;> omega
  rw [pad_length _ _ s.off.isLt, Nat.add_sub_cancel' whole]

@[simp] theorem finalize_off (s : State) : (finalize s).off = 0 := by
  apply Fin.ext
  have := absorbBytes_off (pad s.off.val s.cnt) s
  rw [off_add_pad_length, Nat.mul_mod_right] at this
  exact this

theorem finalize_cnt (s : State) : (finalize s).cnt = s.cnt + BitVec.ofNat 64 (padBlocks s.off.val) := by
  have := absorbBytes_cnt (pad s.off.val s.cnt) s
  rw [off_add_pad_length, Nat.mul_div_cancel_left _ (by decide)] at this
  exact this

/-! The invariants between commands (R35). -/

/-- A cause's code is 1, 2 or 3 (60_exceptions.md R221). -/
theorem code_mem (c : Cause) : c.code = 1 ∨ c.code = 2 ∨ c.code = 3 := by
  cases c <;> decide

/-- Recording a cause keeps the invariants: the first cause stays, and a new one is 1, 2 or 3 (R222). -/
theorem recordError_inv (c : Cause) {s : State} (inv : EngineInv s) : EngineInv (recordError c s) := by
  obtain ⟨-, hcause, hoff⟩ := inv
  refine ⟨by simp, fun _ => ?_, by simpa using hoff⟩
  rw [recordError_ecause]
  split
  · next herr => exact hcause herr
  · exact code_mem c

theorem EventEffect.keeps_inv {e : HostEvent} {s t : State} (eff : EventEffect e s t) (inv : EngineInv s) :
    EngineInv t := by
  cases eff with
  | rejected v c => exact recordError_inv c inv
  | reset | init => simp [EngineInv]
  | absorb n hc legal hfin =>
    obtain ⟨hclear, hcause, -⟩ := inv
    simpa [EngineInv, hfin] using ⟨hclear, hcause⟩
  | final =>
    obtain ⟨hclear, hcause, -⟩ := inv
    simpa [EngineInv] using ⟨hclear, hcause⟩
  | replied | stored | ignored | nop | permp | permq | compress => exact inv

/-- Settles O33: a step is the effect of an event, and every effect keeps the invariants. -/
theorem stepKeepsTheInvariants : Obligations.StepKeepsTheInvariants := by
  unfold Obligations.StepKeepsTheInvariants
  intro s t inv h
  rcases step_cases h with ⟨-, rfl⟩ | ⟨e, rest, -, taken⟩
  · exact inv
  · exact (effect_of_takeEvent taken).keeps_inv inv

/-- Settles O32: ERR and FIN are 0 after reset, and so is ECAUSE. -/
theorem resetMeetsTheInvariants : Obligations.ResetMeetsTheInvariants := by
  unfold Obligations.ResetMeetsTheInvariants
  exact ⟨fun _ => rfl, nofun, nofun⟩

/-! What changes each register (R22, R24, R28 to R30). -/

/-- An ABSORB below the end of the buffer compresses nothing; every other effect that is not listed leaves H. -/
theorem EventEffect.h_changed {e : HostEvent} {s t : State} (eff : EventEffect e s t) (changed : t.h ≠ s.h) :
    (seeds e ∧ t.h = Config.iv) ∨ commandOfEvent e = some .compress ∨
    (∃ n, commandOfEvent e = some (.absorb n) ∧ 64 ≤ s.off.val + n.toNat) ∨ commandOfEvent e = some .final := by
  cases eff with
  | reset he => exact .inl ⟨.inl he, rfl⟩
  | init hc => exact .inl ⟨.inr hc, rfl⟩
  | compress hc => exact .inr (.inl hc)
  | absorb n hc legal =>
    refine .inr (.inr (.inl ⟨n, hc, ?_⟩))
    by_contra room
    refine changed (absorbBytes_of_room _ s ?_).1
    rw [absorbOperand_length s n legal]
    omega
  | final hc => exact .inr (.inr (.inr hc))
  | rejected v c => exact absurd (recordError_h c s) changed
  | replied | stored | ignored | nop | permp | permq => exact absurd rfl changed

/-- Settles O35: H changes only as `EventEffect.h_changed` lists. -/
theorem onlyFourCommandsWriteH : Obligations.OnlyFourCommandsWriteH := by
  unfold Obligations.OnlyFourCommandsWriteH
  intro s t h changed
  obtain ⟨e, head, eff⟩ := effect_of_step_ne h (ne_of_apply_ne State.h changed)
  exact ⟨e, head, eff.h_changed changed⟩

theorem EventEffect.m_changed {e : HostEvent} {s t : State} (eff : EventEffect e s t) (changed : t.m ≠ s.m) :
    e = .reset ∨ commandOfEvent e = some .permp ∨ commandOfEvent e = some .permq ∨ writesM e = true := by
  cases eff with
  | reset he => exact .inl he
  | permp hc => exact .inr (.inl hc)
  | permq hc => exact .inr (.inr (.inl hc))
  | stored j v hw => exact .inr (.inr (.inr hw))
  | rejected v c => exact absurd (recordError_m c s) changed
  | absorb n => exact absurd (absorbBytes_m _ s) changed
  | final => exact absurd (finalize_m s) changed
  | replied | ignored | nop | init | compress => exact absurd rfl changed

/-- Settles O36: M changes only as `EventEffect.m_changed` lists. -/
theorem onlyPermAndHostWriteM : Obligations.OnlyPermAndHostWriteM := by
  unfold Obligations.OnlyPermAndHostWriteM
  intro s t h changed
  obtain ⟨e, head, eff⟩ := effect_of_step_ne h (ne_of_apply_ne State.m changed)
  exact ⟨e, head, eff.m_changed changed⟩

/-- A rejection that changes ERR or ECAUSE found ERR clear, and so wrote its cause (R222). -/
theorem recordError_ecause_of_changed {c : Cause} {s : State}
    (changed : (recordError c s).err ≠ s.err ∨ (recordError c s).ecause ≠ s.ecause) :
    (recordError c s).ecause = c.code := by
  have clear : s.err = false := by
    by_contra stays
    rw [Bool.not_eq_false] at stays
    simp [recordError_ecause, stays] at changed
  simp [recordError_ecause, clear]

theorem EventEffect.err_changed {e : HostEvent} {s t : State} (eff : EventEffect e s t)
    (changed : t.err ≠ s.err ∨ t.ecause ≠ s.ecause) :
    seeds e ∨ ∃ v c, e = commandWrite v ∧ check v s = some c ∧ t.ecause = c.code := by
  cases eff with
  | reset he => exact .inl (.inl he)
  | init hc => exact .inl (.inr hc)
  | rejected v c he hc => exact .inr ⟨v, c, he, hc, recordError_ecause_of_changed changed⟩
  | replied | stored | ignored | nop | permp | permq | compress | absorb | final => simp at changed

/-- Settles O39: ERR and ECAUSE change only as `EventEffect.err_changed` lists. -/
theorem errorNeedsARejectedCommand : Obligations.ErrorNeedsARejectedCommand := by
  unfold Obligations.ErrorNeedsARejectedCommand
  intro s t h changed
  have differs : t ≠ s := by
    rintro rfl
    simp at changed
  obtain ⟨e, head, eff⟩ := effect_of_step_ne h differs
  exact ⟨e, head, eff.err_changed changed⟩

theorem EventEffect.fin_changed {e : HostEvent} {s t : State} (eff : EventEffect e s t) (changed : t.fin ≠ s.fin) :
    (t.fin = true ∧ commandOfEvent e = some .final) ∨ (t.fin = false ∧ seeds e) := by
  cases eff with
  | reset he => exact .inr ⟨rfl, .inl he⟩
  | init hc => exact .inr ⟨rfl, .inr hc⟩
  | final hc => exact .inl ⟨rfl, hc⟩
  | rejected v c => exact absurd (recordError_fin c s) changed
  | absorb n => exact absurd (absorbBytes_fin _ s) changed
  | replied | stored | ignored | nop | permp | permq | compress => exact absurd rfl changed

/-- Settles O40: FIN changes only as `EventEffect.fin_changed` lists. -/
theorem finChangesOnlyByFinalAndSeeding : Obligations.FinChangesOnlyByFinalAndSeeding := by
  unfold Obligations.FinChangesOnlyByFinalAndSeeding
  intro s t h changed
  obtain ⟨e, head, eff⟩ := effect_of_step_ne h (ne_of_apply_ne State.fin changed)
  exact ⟨e, head, eff.fin_changed changed⟩

/-! The block counter (R27, R163). -/

/-- A word that is rejected and decodes all the same is rejected because FIN = 1, so it is one of those that count no
block. -/
theorem fin_of_rejected_command {v : Word} {i : Instr} {c : Cause} {s : State} (hc : check v s = some c)
    (command : commandOfEvent (commandWrite v) = some i) : s.fin = true := by
  cases hd : decode v with
  | illegal c' => rw [commandOfEvent_commandWrite_of_illegal hd] at command; cases command
  | cmd j => exact (fin_of_check_of_decode hd hc).1

/-- Settles O37: of the effects that seed nothing only ABSORB and FINAL reach CNT, by the blocks that
`absorbBytes_cnt` and `finalize_cnt` count. -/
theorem counterCountsAbsorbedBlocks : Obligations.CounterCountsAbsorbedBlocks := by
  unfold Obligations.CounterCountsAbsorbedBlocks
  intro s t e rest hp h notSeed
  rw [step_of_pending s e rest hp] at h
  cases effect_of_takeEvent h with
  | reset he => exact absurd (.inl he) notSeed
  | init hc => exact absurd (.inr hc) notSeed
  | replied v hc | stored j v hw hc | ignored hc | nop hc | permp hc | permq hc | compress hc => simp [hc]
  | absorb n hc legal hfin =>
    have hfin : s.fin = false := hfin
    simp [hc, hfin, absorbBytes_cnt, absorbOperand_length _ n legal]
  | final hc hfin =>
    have hfin : s.fin = false := hfin
    have blocks : padBlocks s.off.val = if s.off.val < 56 then 1 else 2 := rfl
    simp [hc, hfin, finalize_cnt, blocks]
  | rejected v c he hc =>
    subst he
    cases hcmd : commandOfEvent (commandWrite v) with
    | none => simp
    | some i =>
      have hfin : s.fin = true := fin_of_rejected_command hc hcmd
      cases i <;> simp [hfin]

/-! The bytes of BUF at OFF and above (R25). -/

/-- Two states that differ at most beyond the tail are one state with two buffers that agree on the tail. -/
theorem sameButTail_iff {s t : State} :
    SameButTail s t ↔ ∃ b, t = { s with buf := b } ∧ s.buf.toList.take s.off.val = b.toList.take s.off.val := by
  constructor
  · rintro ⟨rest, tails⟩
    refine ⟨t.buf, rest.symm, ?_⟩
    rw [← rest] at tails
    exact tails
  · rintro ⟨b, rfl, tails⟩
    exact ⟨rfl, tails⟩

theorem SameButTail.refl (s : State) : SameButTail s s := ⟨rfl, rfl⟩

/-- An operation that does not look at BUF and does not move OFF up keeps the relation. -/
theorem SameButTail.map {f : State → State} (blind : ∀ s b, f { s with buf := b } = { f s with buf := b })
    (down : ∀ s, (f s).off.val ≤ s.off.val) {s t : State} (same : SameButTail s t) : SameButTail (f s) (f t) := by
  obtain ⟨b, rfl, tails⟩ := sameButTail_iff.mp same
  have kept : (f s).buf = s.buf := by simpa using congrArg State.buf (blind s s.buf)
  refine sameButTail_iff.mpr ⟨b, blind s b, ?_⟩
  have shorter := congrArg (List.take (f s).off.val) tails
  rwa [List.take_take, List.take_take, Nat.min_eq_left (down s), ← kept] at shorter

/-- AbsorbByte writes at OFF or compresses the tail and the byte: it does not show what lies beyond the tail. -/
theorem SameButTail.absorbByte {s t : State} (same : SameButTail s t) (x : Byte) :
    SameButTail (absorbByte s x) (absorbByte t x) := by
  obtain ⟨b, rfl, tails⟩ := sameButTail_iff.mp same
  by_cases room : s.off.val + 1 < 64
  · refine ⟨?_, ?_⟩
    · rw [absorbByte_of_room s x room, absorbByte_of_room { s with buf := b } x room]
    · rw [tailBytes_absorbByte s x room, tailBytes_absorbByte { s with buf := b } x room, same.2]
  · have full : s.off.val + 1 = 64 := by omega
    have written : s.buf.set s.off.val x = b.set s.off.val x := by
      have block : (s.buf.set s.off.val x).toList.take (s.off.val + 1) =
          (b.set s.off.val x).toList.take (s.off.val + 1) := by
        rw [take_set_succ _ _ s.off.isLt, take_set_succ _ _ s.off.isLt, tails]
      rwa [List.take_of_length_le (by simp [full]), List.take_of_length_le (by simp [full]), Vector.toList_inj] at block
    rw [absorbByte_of_full s x full, absorbByte_of_full { s with buf := b } x full, written]
    exact .refl _

theorem SameButTail.absorbBytes {s t : State} (same : SameButTail s t) (bs : List Byte) :
    SameButTail (absorbBytes bs s) (absorbBytes bs t) := by
  induction bs generalizing s t with
  | nil => exact same
  | cons x bs ih => exact ih (same.absorbByte x)

theorem SameButTail.finalize {s t : State} (same : SameButTail s t) : SameButTail (finalize s) (finalize t) := by
  obtain ⟨b, rfl, -⟩ := sameButTail_iff.mp same
  have absorbed := same.absorbBytes (pad s.off.val s.cnt)
  exact absorbed.map (f := fun u => setFin { u with h := outputTransform u.h }) (fun _ _ => rfl) fun _ => le_rfl

theorem SameButTail.recordError {s t : State} (same : SameButTail s t) (c : Cause) :
    SameButTail (recordError c s) (recordError c t) :=
  same.map (fun s b => by simp [recordError_eq]) fun s => by simp

/-- The guard on FIN keeps the relation when the effect behind it does. -/
theorem SameButTail.unlessFinal {s t : State} {f : State → State} (same : SameButTail s t)
    (effect : SameButTail (f s) (f t)) : SameOutcomeButTail (unlessFinal s f) (unlessFinal t f) := by
  have hfin : s.fin = t.fin := by rw [← same.1]
  cases h : t.fin with
  | false => rw [unlessFinal_of_open s f (hfin.trans h), unlessFinal_of_open t f h]; exact effect
  | true =>
    rw [unlessFinal_of_final s f (hfin.trans h), unlessFinal_of_final t f h]
    exact same.recordError _

theorem SameButTail.exec {s t : State} (same : SameButTail s t) (i : Instr) :
    SameOutcomeButTail (exec i s) (exec i t) := by
  cases i with
  | nop => exact same
  | init => exact same.map (f := seed) (fun _ _ => rfl) fun _ => Nat.zero_le _
  | permp => exact same.map (f := fun s => { s with m := perm .P s.m }) (fun _ _ => rfl) fun _ => le_rfl
  | permq => exact same.map (f := fun s => { s with m := perm .Q s.m }) (fun _ _ => rfl) fun _ => le_rfl
  | compress =>
    rw [exec_compress, exec_compress]
    exact same.unlessFinal (same.map (f := fun s => { s with h := cf s.h s.m }) (fun _ _ => rfl) fun _ => le_rfl)
  | absorb n =>
    by_cases legal : n.toNat ≤ 64
    · rw [exec_absorb_of_legal legal, exec_absorb_of_legal legal]
      have operand : absorbOperand s n = absorbOperand t n := by rw [← same.1]; rfl
      refine same.unlessFinal ?_
      rw [operand]
      exact same.absorbBytes _
    · have illegal (u : State) : Machine.exec (.absorb n) u = cmdError .reservedField u := if_pos (by omega)
      rw [illegal, illegal]
      exact same.recordError _
  | final => exact same.unlessFinal same.finalize

theorem SameButTail.issue {s t : State} (same : SameButTail s t) (v : Word) :
    SameOutcomeButTail (issue v s) (issue v t) := by
  cases hd : decode v with
  | cmd i => rw [issue_of_decode_cmd hd, issue_of_decode_cmd hd]; exact same.exec i
  | illegal c => simp only [Machine.issue, hd]; exact same.recordError c

theorem SameButTail.takeEvent {s t : State} (same : SameButTail s t) (e : HostEvent) :
    SameOutcomeButTail (takeEvent e s) (takeEvent e t) := by
  cases e with
  | read offset size =>
    cases hl : locate offset size <;> simp only [Machine.takeEvent, hl]
    case slot k => exact same.map (f := fun s => reply s (readSlot s k)) (fun _ _ => rfl) fun _ => le_rfl
    all_goals rfl
  | write offset size v =>
    cases hl : locate offset size <;> simp only [Machine.takeEvent, hl]
    case slot k =>
      cases hk : slotOf k <;> simp only [writeSlot, hk]
      case cmd => exact same.issue v
      case m j => exact same.map (f := fun s => writeM s j v) (fun _ _ => rfl) fun _ => le_rfl
      all_goals exact same
    all_goals rfl
  | reset =>
    obtain ⟨b, rfl, -⟩ := sameButTail_iff.mp same
    exact .refl (hardReset s)
  | secondHost => rfl
  | resetInsideCommand => rfl

/-- Settles O41: every operation that a step is made of keeps the relation. -/
theorem bytesBeyondTheTailAreUnobservable : Obligations.BytesBeyondTheTailAreUnobservable := by
  unfold Obligations.BytesBeyondTheTailAreUnobservable
  intro s t same
  have hpending : s.pending = t.pending := by rw [← same.1]
  unfold step
  rw [hpending]
  cases t.pending with
  | nil => exact same
  | cons e rest => exact (same.map (f := dropEvent) (fun _ _ => rfl) fun _ => le_rfl).takeEvent e

/-! Reset (R34, 70_reset_and_hazards.md R250). -/

/-- Settles O19: the seven zero words are those of the IV, and the other registers are given directly. -/
theorem resetValues : Obligations.ResetValues := by
  unfold Obligations.ResetValues
  have zeros : ∀ j : Fin 8, j.val < 7 → Config.iv[j] = 0 := by decide
  exact ⟨zeros, rfl, rfl, rfl, rfl, rfl, rfl⟩

/-- Settles O20: the next state is `hardReset`, field by field. -/
theorem resetEventSeedsTheEngine : Obligations.ResetEventSeedsTheEngine := by
  unfold Obligations.ResetEventSeedsTheEngine
  intro s rest hp
  refine ⟨hardReset { s with pending := rest }, step_of_pending s _ rest hp, rfl, rfl, rfl, rfl, rfl, rfl,
    fun j => ?_, fun k => ?_, rfl, rfl, rfl⟩
  · simp [drawnM]
  · simp [drawnBuf]

end Sys2Proof.Machine
end

