-- ==== Sys2Proof/Proofs/Memory.lean ====
section
/-! SUPPORT. The register window (20_memory.md): where an access lands, what each slot answers to a read and does with
a write, the fields of STATUS, and what every event leaves of the two lists that the host sees; the statements about
the window follow from these. -/

namespace Sys2Proof.Machine

/-! The map of the window by slot number (R50). -/

theorem slotOf_eq_h {k : Fin 32} {j : Fin 8} (hk : k.val = 8 + j.val) : slotOf k = .h j :=
  (congrArg slotOf (Fin.ext hk)).trans (slotOf_h j)

theorem slotOf_eq_m {k : Fin 32} {j : Fin 8} (hk : k.val = 16 + j.val) : slotOf k = .m j :=
  (congrArg slotOf (Fin.ext hk)).trans (slotOf_m j)

theorem slotOf_eq_reserved {k : Fin 32} (hk : 3 ≤ k.val ∧ k.val < 8 ∨ 24 ≤ k.val) : slotOf k = .reserved := by
  revert k; decide

/-- The slots of M are the numbers 16 to 23. -/
theorem range_of_slotOf_m {k : Fin 32} {j : Fin 8} (hk : slotOf k = .m j) : 16 ≤ k.val ∧ k.val < 24 := by
  revert k j; decide

/-! Where an access lands (R51). -/

theorem locate_eq_slot_iff {offset : Int} {size : Nat} :
    (∃ k, locate offset size = .slot k) ↔ size = 8 ∧ 0 ≤ offset ∧ offset < 256 ∧ offset % 8 = 0 := by
  constructor
  · rintro ⟨k, hk⟩
    obtain ⟨rfl, rfl⟩ := eq_of_locate_slot hk
    omega
  · intro aligned
    exact ⟨_, dif_pos aligned⟩

theorem locate_eq_unmodelled {offset : Int} {size : Nat}
    (other : size ≠ 8 ∨ offset < 0 ∨ 248 < offset ∨ offset % 8 ≠ 0) (above : 0 < offset + size) (below : offset < 256) :
    locate offset size = .unmodelled := by
  rw [locate_of_not_slot (by omega), if_neg (by omega)]

theorem locate_eq_outside {offset : Int} {size : Nat} (apart : offset + size ≤ 0 ∨ 256 ≤ offset) :
    locate offset size = .outside := by
  rw [locate_of_not_slot (by omega), if_pos apart]

/-! Taking an access, by where it lands. -/

theorem takeEvent_of_unmodelled {offset : Int} {size : Nat} (h : locate offset size = .unmodelled) (v : Word)
    (s : State) : takeEvent (.read offset size) s = .refused .unmodelledAccess ∧
      takeEvent (.write offset size v) s = .refused .unmodelledAccess := by
  simp only [takeEvent, h, and_self]

theorem takeEvent_of_outside {offset : Int} {size : Nat} (h : locate offset size = .outside) (v : Word)
    (s : State) : takeEvent (.read offset size) s = .fault .outsideWindow ∧
      takeEvent (.write offset size v) s = .fault .outsideWindow := by
  simp only [takeEvent, h, and_self]

/-- A step with a read of slot `k` pending replies what the slot holds, and changes nothing else (R53). -/
theorem step_read_slot {s : State} {rest : List HostEvent} {k : Fin 32}
    (hp : s.pending = .read (8 * (k.val : Int)) 8 :: rest) :
    step s = .next { s with pending := rest, replies := s.replies ++ [readSlot s k] } := by
  rw [step_of_pending s _ rest hp]
  simp only [takeEvent, locate_slot]
  rfl

theorem step_write_slot {s : State} {rest : List HostEvent} {k : Fin 32} {v : Word}
    (hp : s.pending = .write (8 * (k.val : Int)) 8 v :: rest) : step s = writeSlot k v { s with pending := rest } := by
  rw [step_of_pending s _ rest hp]
  simp only [takeEvent, locate_slot]

/-! What a slot answers to a read (R53). -/

theorem readSlot_h (s : State) {k : Fin 32} {j : Fin 8} (hk : k.val = 8 + j.val) : readSlot s k = s.h[j] := by
  simp only [readSlot, slotOf_eq_h hk]

theorem readSlot_m (s : State) {k : Fin 32} {j : Fin 8} (hk : k.val = 16 + j.val) : readSlot s k = s.m[j] := by
  simp only [readSlot, slotOf_eq_m hk]

theorem readSlot_reserved (s : State) {k : Fin 32} (hk : 3 ≤ k.val ∧ k.val < 8 ∨ 24 ≤ k.val) : readSlot s k = 0 := by
  simp only [readSlot, slotOf_eq_reserved hk]

/-- Settles O11: the reply is `readSlot`, clause by clause of the map. -/
theorem readsReturnTheSlot : Obligations.ReadsReturnTheSlot := by
  unfold Obligations.ReadsReturnTheSlot
  intro s rest k hp
  refine ⟨readSlot s k, step_read_slot hp, fun h0 => ?cmd, fun h1 => ?status, fun h2 => ?cnt,
    fun low high => readSlot_reserved s (.inl ⟨low, high⟩), fun j => readSlot_h s, fun j => readSlot_m s,
    fun high => readSlot_reserved s (.inr high)⟩
  case cmd => obtain rfl : k = 0 := Fin.ext h0; rfl
  case status => obtain rfl : k = 1 := Fin.ext h1; rfl
  case cnt => obtain rfl : k = 2 := Fin.ext h2; rfl

/-! What a slot does with a write (R54). -/

theorem writeSlot_m (s : State) {k : Fin 32} {j : Fin 8} (hk : k.val = 16 + j.val) (v : Word) :
    writeSlot k v s = .next (writeM s j v) := by
  simp only [writeSlot, slotOf_eq_m hk]

/-- A write of a slot that is neither CMD nor a word of M is ignored. -/
theorem writeSlot_ignored (s : State) {k : Fin 32} (notCmd : k.val ≠ 0) (notM : k.val < 16 ∨ 24 ≤ k.val) (v : Word) :
    writeSlot k v s = .next s := by
  cases hk : slotOf k with
  | cmd => exact absurd (congrArg Fin.val (eq_zero_of_slotOf_cmd hk)) notCmd
  | m j =>
    have := range_of_slotOf_m hk
    omega
  | status | cnt | h | reserved => simp only [writeSlot, hk]

/-- Settles O12: a step with a write pending is `writeSlot`, which issues, stores or ignores by the slot. -/
theorem writesReachOnlyCmdAndM : Obligations.WritesReachOnlyCmdAndM := by
  unfold Obligations.WritesReachOnlyCmdAndM
  intro s rest k v hp
  rw [step_write_slot hp]
  refine ⟨fun h0 => ?cmd, fun j hj => writeSlot_m _ hj v, fun notCmd notM => writeSlot_ignored _ notCmd notM v⟩
  case cmd => obtain rfl : k = 0 := Fin.ext h0; rfl

/-! STATUS (R52). -/

/-- STATUS bit by bit: each bit belongs to the part of the concatenation that covers it. -/
theorem statusWord_getLsbD (s : State) (i : Nat) :
    (statusWord s).getLsbD i =
      if i = 0 then s.fin else if i = 1 then s.err else if i < 4 then false
      else if i < 8 then s.ecause.getLsbD (i - 4) else decide (i < 14) && s.off.val.testBit (i - 8) := by
  simp only [statusWord, BitVec.getLsbD_setWidth, BitVec.getLsbD_append, BitVec.getLsbD_ofBool, BitVec.getLsbD_ofNat]
  grind

theorem statusWord_ecause (s : State) : (statusWord s).extractLsb' 4 4 = s.ecause := by
  apply BitVec.eq_of_getLsbD_eq
  intro i hi
  simp (disch := omega) only [BitVec.getLsbD_extractLsb', statusWord_getLsbD, if_neg, if_pos]
  simp [hi]

theorem statusWord_off (s : State) : (statusWord s).extractLsb' 8 6 = BitVec.ofNat 6 s.off.val := by
  apply BitVec.eq_of_getLsbD_eq
  intro i hi
  simp (disch := omega) only [BitVec.getLsbD_extractLsb', statusWord_getLsbD, if_neg]
  have : 8 + i < 14 := by omega
  simp [hi, this]

theorem statusWord_zero_low (s : State) : (statusWord s).extractLsb' 2 2 = 0 := by
  apply BitVec.eq_of_getLsbD_eq
  intro i hi
  simp (disch := omega) only [BitVec.getLsbD_extractLsb', statusWord_getLsbD, if_neg, if_pos]
  simp

theorem statusWord_zero_high (s : State) : (statusWord s).extractLsb' 14 50 = 0 := by
  apply BitVec.eq_of_getLsbD_eq
  intro i hi
  simp (disch := omega) only [BitVec.getLsbD_extractLsb', statusWord_getLsbD, if_neg]
  simp

/-- Settles O13: the reply is `statusWord`, whose fields are read off its bits, and slot 1 ignores a write. -/
theorem statusLayout : Obligations.StatusLayout := by
  unfold Obligations.StatusLayout
  intro s rest
  refine ⟨fun hp => ⟨statusWord s, step_read_slot (k := 1) hp, ?_⟩, fun v hp =>
    (step_write_slot (k := 1) hp).trans (writeSlot_ignored _ (by decide) (.inl (by decide)) v)⟩
  refine ⟨statusWord_getLsbD s 0, statusWord_getLsbD s 1, statusWord_zero_low s, statusWord_ecause s, ?_,
    statusWord_zero_high s⟩
  rw [statusWord_off, BitVec.toNat_ofNat, Nat.mod_eq_of_lt s.off.isLt]

/-! Accesses that are not modelled (R50, R51). -/

/-- Settles O14: the access lands on `unmodelled`. -/
theorem otherAccessesAreRefused : Obligations.OtherAccessesAreRefused := by
  unfold Obligations.OtherAccessesAreRefused
  intro s rest offset size v other above below
  obtain ⟨refusedRead, refusedWrite⟩ :=
    takeEvent_of_unmodelled (locate_eq_unmodelled other above below) v { s with pending := rest }
  exact ⟨fun hp => (step_of_pending s _ rest hp).trans refusedRead,
    fun hp => (step_of_pending s _ rest hp).trans refusedWrite⟩

/-- Settles O15: the access lands on `outside`. -/
theorem accessOutsideTheWindowFaults : Obligations.AccessOutsideTheWindowFaults := by
  unfold Obligations.AccessOutsideTheWindowFaults
  intro s rest offset size v apart
  obtain ⟨faultRead, faultWrite⟩ := takeEvent_of_outside (locate_eq_outside apart) v { s with pending := rest }
  exact ⟨fun hp => (step_of_pending s _ rest hp).trans faultRead,
    fun hp => (step_of_pending s _ rest hp).trans faultWrite⟩

/-! The window at any BASE (00_scope.md R9). -/

/-- A read is modelled when it lands on a slot. -/
theorem modelledEvent_read_iff {offset : Int} {size : Nat} :
    modelledEvent (.read offset size) = true ↔ ∃ k, locate offset size = .slot k := by
  cases h : locate offset size <;> simp [modelledEvent, h]

/-- A write is modelled where a read of the same place is. -/
theorem modelledEvent_write (offset : Int) (size : Nat) (v : Word) :
    modelledEvent (.write offset size v) = modelledEvent (.read offset size) := rfl

theorem modelledEvent_busRead_iff (base addr size : Nat) :
    modelledEvent (busEvent base (.memRead addr size)) = true ↔
      size = 8 ∧ base ≤ addr ∧ addr < base + 256 ∧ (addr - base) % 8 = 0 := by
  rw [busEvent, modelledEvent_read_iff, locate_eq_slot_iff]
  omega

/-- Settles O16: a bus access is the access at its address less BASE, which lands on a slot as `locate_eq_slot_iff`
says. -/
theorem windowStandsAtAnyBase : Obligations.WindowStandsAtAnyBase := by
  unfold Obligations.WindowStandsAtAnyBase
  intro base addr size v
  have offset (k : Fin 32) : ((base + 8 * k.val : Nat) : Int) - base = 8 * (k.val : Int) := by omega
  refine ⟨modelledEvent_busRead_iff base addr size, ?write, fun k => ⟨?_, ?_, locate_slot k⟩⟩
  case write =>
    rw [busEvent, modelledEvent_write]
    exact modelledEvent_busRead_iff base addr size
  all_goals rw [busEvent, offset]

/-! The host's lists (R57, R58). -/

/-- No event's effect touches what the host has still pending. -/
theorem EventEffect.pending_eq {e : HostEvent} {s t : State} (eff : EventEffect e s t) : t.pending = s.pending := by
  cases eff with
  | rejected v c => exact recordError_pending c s
  | absorb n => exact absorbBytes_pending _ s
  | final => exact finalize_pending s
  | reset | replied | stored | ignored | nop | init | permp | permq | compress => rfl

/-- Only a read adds a reply, and it adds one at the end. -/
theorem EventEffect.replies_eq {e : HostEvent} {s t : State} (eff : EventEffect e s t) :
    t.replies = s.replies ∨ ∃ v, t.replies = s.replies ++ [v] := by
  cases eff with
  | replied v => exact .inr ⟨v, rfl⟩
  | rejected v c => exact .inl (recordError_replies c s)
  | absorb n => exact .inl (absorbBytes_replies _ s)
  | final => exact .inl (finalize_replies s)
  | reset | stored | ignored | nop | init | permp | permq | compress => exact .inl rfl

/-- Settles O17: a step drops the oldest event, and the effect of that event keeps the rest and adds at most one
reply. -/
theorem eventsAreTakenInOrder : Obligations.EventsAreTakenInOrder := by
  unfold Obligations.EventsAreTakenInOrder
  refine fun s => ⟨fun t h => ?next, fun idle => ?idle⟩
  case next =>
    rcases step_cases h with ⟨hp, rfl⟩ | ⟨e, rest, -, taken⟩
    · exact ⟨by rw [hp]; rfl, .inl rfl⟩
    · have eff := effect_of_takeEvent taken
      exact ⟨eff.pending_eq, eff.replies_eq⟩
  case idle => simp only [step, idle]

end Sys2Proof.Machine
end

/-! SUPPORT. The command word and the host programs made of it (30_encoding.md): the decoder and the encoder undo each
other, a CMD write runs what was decoded, and the pseudo-instructions LOADM and HASH expand to accesses that do what
R80 says. Programs are composed by `Completes`, and the absorbing part of one by `Absorbs`. -/

namespace Sys2Proof.Machine

/-! The fields of a command word (R70, R72, R74). -/

theorem encodedFields (i : Instr) : Laws.EncodedFields.Statement i := by
  cases i with
  | nop => exact Laws.EncodedFields.nop
  | init => exact Laws.EncodedFields.init
  | permp => exact Laws.EncodedFields.permp
  | permq => exact Laws.EncodedFields.permq
  | compress => exact Laws.EncodedFields.compress
  | absorb len => exact Laws.EncodedFields.absorb len
  | final => exact Laws.EncodedFields.final

/-- The opcode map undoes the two fields that the encoder writes, so a command is known by them (R74). -/
theorem commandOf_opcode_lenOperand (i : Instr) : commandOf i.opcode i.lenOperand = some i := by
  cases i <;> rfl

theorem opcode_mem_opcodes (i : Instr) : i.opcode ∈ opcodes := by
  cases i <;> simp [Instr.opcode, opcodes]

/-- The words that the encoder writes are proper exactly for the well-formed commands: only LEN of ABSORB can be at
fault (R72, R73). -/
theorem misused_encode_iff (i : Instr) : misused (encode i) ↔ i.wf = false := by
  obtain ⟨hop, hrz1, hlen, hrz2⟩ := encodedFields i
  rw [misused, hop, hrz1, hlen, hrz2]
  cases i <;> simp [Instr.opcode, Instr.lenOperand, Instr.wf]

/-- What a word that decodes to a command looks like. -/
theorem fields_of_decode_cmd {v : Word} {i : Instr} (hd : decode v = .cmd i) :
    opcField v ∈ opcodes ∧ ¬ misused v ∧ i.opcode = opcField v ∧ i.lenOperand = lenField v := by
  rcases decode_cases v with ⟨-, h⟩ | ⟨-, -, h⟩ | ⟨known, proper, j, h, hop, hlen⟩
  · rw [h] at hd; cases hd
  · rw [h] at hd; cases hd
  · rw [h] at hd
    cases hd
    exact ⟨known, proper, hop, hlen⟩

/-- A word that decodes to a command holds the fields that the encoder writes. -/
theorem encode_of_decode_cmd {v : Word} {i : Instr} (hd : decode v = .cmd i) : encode i = v := by
  obtain ⟨-, proper, hop, hlen⟩ := fields_of_decode_cmd hd
  obtain ⟨eop, erz1, elen, erz2⟩ := encodedFields i
  have vrz1 : rz1Field v = 0 := Classical.byContradiction fun h => proper (.inl h)
  have vrz2 : rz2Field v = 0 := Classical.byContradiction fun h => proper (.inr (.inl h))
  exact word_eq_of_fields (eop.trans hop) (erz1.trans vrz1.symm) (elen.trans hlen) (erz2.trans vrz2.symm)

/-- The word of a well-formed command has a known opcode and no reserved field in use, so it decodes to a command, and
that command has its opcode and its LEN. -/
theorem decode_encode {i : Instr} (legal : i.wf = true) : decode (encode i) = .cmd i := by
  obtain ⟨hop, -, hlen, -⟩ := encodedFields i
  rcases decode_cases (encode i) with ⟨unknown, -⟩ | ⟨-, bad, -⟩ | ⟨-, -, j, h, jop, jlen⟩
  · exact absurd (hop ▸ opcode_mem_opcodes i) unknown
  · rw [misused_encode_iff, legal] at bad
    cases bad
  · have same : some j = some i := by
      rw [← commandOf_opcode_lenOperand j, jop, jlen, hop, hlen, commandOf_opcode_lenOperand i]
    cases same
    exact h

/-- Settles O1: `decode_encode`. -/
theorem encodeThenDecodeGivesTheCommand : Obligations.EncodeThenDecodeGivesTheCommand :=
  fun _ => decode_encode

/-- Settles O2: the word is its own encoding, and a word that decodes misuses no field. -/
theorem decodedWordIsTheEncoding : Obligations.DecodedWordIsTheEncoding := by
  unfold Obligations.DecodedWordIsTheEncoding
  intro v i hd
  have word := encode_of_decode_cmd hd
  obtain ⟨-, proper, -, -⟩ := fields_of_decode_cmd hd
  rw [← word, misused_encode_iff, Bool.not_eq_false] at proper
  exact ⟨word, proper⟩

/-- Which words get which answer: `decode_cases` in both directions, since its three cases exclude each other. -/
theorem decode_split (v : Word) :
    (decode v = .illegal .illegalOpcode ↔ opcField v ∉ opcodes) ∧
    (decode v = .illegal .reservedField ↔ opcField v ∈ opcodes ∧ misused v) ∧
    decode v ≠ .illegal .inputAfterFinal ∧
    ((∃ i, decode v = .cmd i) ↔ opcField v ∈ opcodes ∧ ¬ misused v) := by
  rcases decode_cases v with ⟨unknown, h⟩ | ⟨known, bad, h⟩ | ⟨known, proper, i, h, -⟩
  · simp [h, unknown]
  · simp [h, known, bad]
  · simp [h, known, proper]

/-- Settles O3: `decode_split`, and the fields of a word that decodes. -/
theorem decodeSplitsEveryWord : Obligations.DecodeSplitsEveryWord := by
  unfold Obligations.DecodeSplitsEveryWord
  intro v
  obtain ⟨illegal, reserved, notLate, accepted⟩ := decode_split v
  refine ⟨illegal, reserved, notLate, accepted, fun i hd => ?_⟩
  obtain ⟨-, -, hop, hlen⟩ := fields_of_decode_cmd hd
  exact ⟨hop, hlen⟩

/-- Settles O4: the decoder is run on each of the eight words. -/
theorem listedWordsDecode : Obligations.ListedWordsDecode := by
  unfold Obligations.ListedWordsDecode
  decide

/-! Issuing a command word (R76). -/

/-- A step with a CMD write pending issues the word. -/
theorem step_commandWrite {s : State} {v : Word} {rest : List HostEvent} (hp : s.pending = commandWrite v :: rest) :
    step s = issue v { s with pending := rest } :=
  (step_of_pending s _ rest hp).trans (takeEvent_commandWrite v _)

/-- Settles O5: the step issues the word, and issuing runs the command that the word decodes to. -/
theorem stepRunsTheDecodedCommand : Obligations.StepRunsTheDecodedCommand := by
  unfold Obligations.StepRunsTheDecodedCommand
  refine ⟨fun s v rest i hp hd => ?write, fun s w i small hd => ?fetch⟩
  case write => rw [step_commandWrite hp, issue_of_decode_cmd hd]
  case fetch =>
    have front : (s.withFetchWord 64 w).pending = commandWrite (BitVec.ofNat 64 w) :: s.pending := by
      rw [State.withFetchWord, Nat.mod_eq_of_lt small]
    rw [step_commandWrite front, issue_of_decode_cmd hd]
    rfl

/-- Settles O8: the step issues the word; `check` looks at FIN, which taking the event leaves, and a word it accepts
decodes to the command whose word it is. -/
theorem issueFollowsCheck : Obligations.IssueFollowsCheck := by
  unfold Obligations.IssueFollowsCheck
  intro v s rest hp
  rw [step_commandWrite hp]
  refine ⟨fun c rejected => issue_of_check_some rejected, fun accepted => ?_⟩
  cases hd : decode v with
  | illegal c => rw [check_of_decode_illegal hd] at accepted; cases accepted
  | cmd i => exact ⟨i, rfl, encode_of_decode_cmd hd, issue_of_decode_cmd hd _⟩

/-! Programs of host accesses, run to their end (R79). -/

/-- The state with another list of pending events: what the host has still to do is no register of the engine. -/
def withPending (rest : List HostEvent) (s : State) : State := { s with pending := rest }

@[simp] theorem withPending_m (rest : List HostEvent) (s : State) : (withPending rest s).m = s.m := rfl

/-- The state with another block in M (10_state.md R24). -/
def withM (m : Wide) (s : State) : State := { s with m := m }

@[simp] theorem withM_m (m : Wide) (s : State) : (withM m s).m = m := rfl
@[simp] theorem withM_fin (m : Wide) (s : State) : (withM m s).fin = s.fin := rfl
@[simp] theorem withM_replies (m : Wide) (s : State) : (withM m s).replies = s.replies := rfl
@[simp] theorem withM_withM (m m' : Wide) (s : State) : withM m (withM m' s) = withM m s := rfl

/-- With the accesses of `p` first among the pending events, as many steps as `p` has lines take `s` to `t` and leave
the events behind them, whatever these are. -/
def Completes (p : List AsmLine) (s t : State) : Prop :=
  ∀ rest, run p.length (withPending (programEvents p ++ rest) s) = .next (withPending rest t)

/-- A program that stands first among the pending events runs to its end. -/
theorem Completes.run_eq {p : List AsmLine} {s t : State} (h : Completes p s t) {rest : List HostEvent}
    (hp : s.pending = programEvents p ++ rest) : run p.length s = .next (withPending rest t) := by
  rw [← h rest, ← hp]
  rfl

theorem run_add (j k : Nat) {s t : State} (h : run j s = .next t) : run (j + k) s = run k t := by
  induction j generalizing s with
  | zero => cases h; rw [Nat.zero_add]
  | succ j ih =>
    rw [Nat.add_right_comm]
    cases hs : step s with
    | next u =>
      simp only [run, hs] at h ⊢
      exact ih h
    | fault r => simp only [run, hs] at h; cases h
    | refused r => simp only [run, hs] at h; cases h

theorem Completes.nil (s : State) : Completes [] s s := fun _ => rfl

/-- A line completes when its access, taken, leads to the next state. -/
theorem Completes.line {l : AsmLine} {s t : State}
    (h : ∀ rest, takeEvent l.event (withPending rest s) = .next (withPending rest t)) :
    Completes [l] s t := by
  intro rest
  have taken : step (withPending (programEvents [l] ++ rest) s) = .next (withPending rest t) :=
    (step_of_pending _ l.event rest rfl).trans (h rest)
  simp only [List.length_singleton, run, taken]

theorem Completes.append {p q : List AsmLine} {s t u : State} (hp : Completes p s t) (hq : Completes q t u) :
    Completes (p ++ q) s u := by
  intro rest
  have first := hp (programEvents q ++ rest)
  rw [← List.append_assoc, programEvents, programEvents, ← List.map_append] at first
  rw [List.length_append, programEvents, run_add _ _ first]
  exact hq rest

theorem Completes.cons {l : AsmLine} {p : List AsmLine} {s t u : State} (hl : Completes [l] s t)
    (hp : Completes p t u) : Completes (l :: p) s u := hl.append hp

/-! The accesses of a program, one by one. -/

/-- A command line runs its command (R76, R79). -/
theorem completes_command {i : Instr} (legal : i.wf = true) {s t : State}
    (h : ∀ rest, exec i (withPending rest s) = .next (withPending rest t)) :
    Completes [.command i] s t :=
  .line fun rest =>
    (takeEvent_commandWrite _ _).trans ((issue_of_decode_cmd (decode_encode legal) _).trans (h rest))

/-- A write of M stores the word (R54). -/
theorem completes_wr_m (j : Fin 8) (v : Word) (s : State) : Completes [.wr (.m j) v] s (writeM s j v) := by
  refine .line fun rest => ?_
  have offset : ((AsmReg.m j).offset : Int) = 8 * ((⟨16 + j.val, by omega⟩ : Fin 32).val : Int) := by
    simp only [AsmReg.offset]
    omega
  rw [AsmLine.event, takeEvent, offset, locate_slot]
  exact writeSlot_m _ rfl v

/-- A read of H replies its word (R53). -/
theorem completes_rd_h (j : Fin 8) (s : State) : Completes [.rd (.h j)] s (reply s s.h[j]) := by
  refine .line fun rest => ?_
  have offset : ((AsmReg.h j).offset : Int) = 8 * ((⟨8 + j.val, by omega⟩ : Fin 32).val : Int) := by
    simp only [AsmReg.offset]
    omega
  rw [AsmLine.event, takeEvent, offset, locate_slot]
  simp only [readSlot_h (withPending rest s) (k := ⟨8 + j.val, by omega⟩) rfl]
  rfl

/-- Reads of words of H, one after the other, add their values to the replies. -/
theorem completes_reads (js : List (Fin 8)) (s : State) :
    Completes (js.map fun j => .rd (.h j)) s { s with replies := s.replies ++ js.map (s.h[·]) } := by
  induction js generalizing s with
  | nil => simpa using Completes.nil s
  | cons j js ih =>
    have rest := ih (reply s s.h[j])
    rw [reply_replies, List.append_assoc] at rest
    exact (completes_rd_h j s).cons rest

/-! LOADM (R80). -/

/-- The values `f j` stored into the words `j` of a list, one after the other. -/
def storeWords (f : Fin 8 → Word) (js : List (Fin 8)) (m : Wide) : Wide := js.foldl (fun m j => m.set j.val (f j)) m

theorem storeWords_getElem (f : Fin 8 → Word) (js : List (Fin 8)) (m : Wide) (k : Fin 8) :
    (storeWords f js m)[k] = if k ∈ js then f k else m[k] := by
  induction js generalizing m with
  | nil => simp [storeWords]
  | cons j js ih =>
    have tail : storeWords f (j :: js) m = storeWords f js (m.set j.val (f j)) := rfl
    rw [tail, ih]
    by_cases later : k ∈ js
    · simp [later]
    by_cases here : k = j
    · simp [here]
    · have apart : j.val ≠ k.val := fun e => here (Fin.ext e.symm)
      simp [later, here, apart]

theorem completes_writes (f : Fin 8 → Word) (js : List (Fin 8)) (s : State) :
    Completes (js.map fun j => .wr (.m j) (f j)) s (withM (storeWords f js s.m) s) := by
  induction js generalizing s with
  | nil => exact .nil s
  | cons j js ih => exact (completes_wr_m j (f j) s).cons (ih (writeM s j (f j)))

/-- LOADM writes every word of M, each with the eight bytes of the block that make it. -/
theorem completes_loadm (bytes : List Byte) (s : State) : Completes (loadm bytes) s (withM (blockOf bytes) s) := by
  have block : storeWords (fun j => wordOf fun i => bytes.getD (8 * j.val + i.val) 0) (List.finRange 8) s.m =
      blockOf bytes := by
    apply wide_ext
    intro j
    rw [storeWords_getElem, if_pos (List.mem_finRange j)]
    simp [blockOf]
  rw [← block]
  exact completes_writes _ _ s

/-- Settles O59: LOADM completes, and has eight lines. -/
theorem loadmLoadsTheBlock : Obligations.LoadmLoadsTheBlock := by
  unfold Obligations.LoadmLoadsTheBlock
  intro bytes s rest hp
  have eight : (loadm bytes).length = 8 := by simp [loadm]
  rw [← eight, (completes_loadm bytes s).run_eq hp]
  rfl

/-! Absorbing does not look at the block register or at the pending events (42_absorber.md R160). -/

theorem absorbByte_withM (m : Wide) (s : State) (x : Byte) : absorbByte (withM m s) x = withM m (absorbByte s x) := by
  unfold absorbByte withM
  dsimp only
  split <;> rfl

theorem absorbByte_withPending (rest : List HostEvent) (s : State) (x : Byte) :
    absorbByte (withPending rest s) x = withPending rest (absorbByte s x) := by
  unfold absorbByte withPending
  dsimp only
  split <;> rfl

theorem absorbBytes_withM (bs : List Byte) (m : Wide) (s : State) :
    absorbBytes bs (withM m s) = withM m (absorbBytes bs s) :=
  List.foldl_hom (withM m) (absorbByte_withM m)

theorem absorbBytes_withPending (bs : List Byte) (rest : List HostEvent) (s : State) :
    absorbBytes bs (withPending rest s) = withPending rest (absorbBytes bs s) :=
  List.foldl_hom (withPending rest) (absorbByte_withPending rest)

theorem finalize_withPending (rest : List HostEvent) (s : State) :
    finalize (withPending rest s) = withPending rest (finalize s) := by
  rw [finalize, absorbBytes_withPending]
  rfl

theorem absorbBytes_append (a b : List Byte) (s : State) :
    absorbBytes (a ++ b) s = absorbBytes b (absorbBytes a s) := List.foldl_append

/-! Programs that absorb a string (R80). -/

/-- From every state that takes input, the program `p` absorbs the bytes `bs`, and leaves some block in M. -/
def Absorbs (p : List AsmLine) (bs : List Byte) : Prop :=
  ∀ s : State, s.fin = false → ∃ m, Completes p s (absorbBytes bs (withM m s))

theorem Absorbs.nil : Absorbs [] [] := fun s _ => ⟨s.m, .nil s⟩

theorem Absorbs.append {p q : List AsmLine} {a b : List Byte} (hp : Absorbs p a) (hq : Absorbs q b) :
    Absorbs (p ++ q) (a ++ b) := by
  intro s hfin
  obtain ⟨m, first⟩ := hp s hfin
  obtain ⟨m', second⟩ := hq (absorbBytes a (withM m s)) (by simpa using hfin)
  have reloaded : withM m' (absorbBytes a (withM m s)) = absorbBytes a (withM m' s) := by
    rw [absorbBytes_withM, absorbBytes_withM, withM_withM]
  rw [reloaded, ← absorbBytes_append] at second
  exact ⟨m', first.append second⟩

/-- The bytes of a string of at most 64 are read back from the block it makes. -/
theorem take_ser_blockOf {bs : List Byte} (short : bs.length ≤ 64) :
    (ser (blockOf bs)).toList.take bs.length = bs := by
  rw [blockOf, ser_deser]
  apply List.ext_getElem
  · simp [short]
  · intro k hk hk'
    simp [hk']

/-- LOADM of a string and ABSORB of its length absorb the string (R162). -/
theorem absorbs_block {bs : List Byte} {n : BitVec 7} (legal : n.toNat ≤ 64) (whole : n.toNat = bs.length) :
    Absorbs (loadm bs ++ [.command (.absorb n)]) bs := by
  intro s hfin
  refine ⟨blockOf bs, (completes_loadm bs s).append ?_⟩
  have wellFormed : (Instr.absorb n).wf = true := decide_eq_true legal
  refine completes_command wellFormed fun rest => ?_
  have operand : absorbOperand (withPending rest (withM (blockOf bs) s)) n = bs := by
    rw [absorbOperand_eq, withPending_m, withM_m, whole, take_ser_blockOf (whole ▸ legal)]
  have accepted : (withPending rest (withM (blockOf bs) s)).fin = false := hfin
  rw [exec_absorb_of_legal legal, unlessFinal_of_open _ _ accepted, operand, absorbBytes_withPending]

/-- The blocks that HASH absorbs whole, by their number. -/
theorem absorbs_blocks (msg : List Byte) (q : Nat) (given : 64 * q ≤ msg.length) :
    Absorbs ((List.range q).flatMap fun c => loadm ((msg.drop (64 * c)).take 64) ++ [.command (.absorb 64)])
      (msg.take (64 * q)) := by
  induction q with
  | zero => exact .nil
  | succ q ih =>
    have length : ((msg.drop (64 * q)).take 64).length = 64 := by
      rw [List.length_take, List.length_drop]
      omega
    rw [List.range_succ, List.flatMap_append, List.flatMap_singleton, Nat.mul_succ, List.take_add]
    exact (ih (by omega)).append (absorbs_block (by decide) length.symm)

/-- HASH is INIT, a program that absorbs the message, FINAL and RDDIGEST. -/
theorem hashProgram_eq (msg : List Byte) :
    ∃ p, Absorbs p msg ∧ hashProgram msg = .command .init :: (p ++ .command .final :: rdDigest) := by
  have whole := absorbs_blocks msg (msg.length / 64) (Nat.mul_div_le _ _)
  have rest : Absorbs (if msg.length % 64 ≠ 0 then
      loadm (msg.drop (64 * (msg.length / 64))) ++ [.command (.absorb (BitVec.ofNat 7 (msg.length % 64)))] else [])
      (msg.drop (64 * (msg.length / 64))) := by
    have length : (msg.drop (64 * (msg.length / 64))).length = msg.length % 64 := by
      rw [List.length_drop]
      omega
    have len : (BitVec.ofNat 7 (msg.length % 64)).toNat = msg.length % 64 := by
      rw [BitVec.toNat_ofNat]
      omega
    split
    · exact absorbs_block (by omega) (len.trans length.symm)
    · next none =>
      rw [List.eq_nil_of_length_eq_zero (by omega : (msg.drop (64 * (msg.length / 64))).length = 0)]
      exact .nil
  have both := whole.append rest
  rw [List.take_append_drop] at both
  exact ⟨_, both, rfl⟩

/-! The digest (42_absorber.md R160, R161, 43_finalizer.md R180 to R183). -/

/-- Absorbing a string chains the whole blocks of the tail and the string. -/
theorem absorbBytes_h (bs : List Byte) (s : State) : (absorbBytes bs s).h = chain s.h (tailBytes s ++ bs) := by
  induction bs generalizing s with
  | nil => rw [chain_of_short _ _ (by simp), absorbBytes_nil]
  | cons x bs ih =>
    have shift : tailBytes s ++ x :: bs = (tailBytes s ++ [x]) ++ bs := by simp
    rw [absorbBytes_cons, ih, shift]
    by_cases room : s.off.val + 1 < 64
    · rw [tailBytes_absorbByte s x room, absorbByte_of_room s x room]
    · have full : s.off.val + 1 = 64 := by omega
      have length : (tailBytes s ++ [x]).length = 64 := by simp [full]
      have emptied : tailBytes (absorbByte s x) = [] := by
        rw [absorbByte_of_full s x full]
        rfl
      rw [absorbByte_h_of_full s x full, emptied, chain_of_long s.h _ (by rw [List.length_append]; omega),
        blockOf_append _ _ length.ge, List.drop_left' length, List.nil_append]

/-- From a seeded chaining value, count and offset, absorbing a message and finalizing leave its digest in H. -/
theorem trunc_finalize_absorbBytes (msg : List Byte) {s : State} (hh : s.h = Config.iv) (hcnt : s.cnt = 0)
    (hoff : s.off = 0) : trunc (finalize (absorbBytes msg s)).h = hashOf msg := by
  have tail : tailBytes s = [] := by simp [tailBytes, hoff]
  have off : (absorbBytes msg s).off.val = msg.length % 64 := by simp [absorbBytes_off, hoff]
  have cnt : (absorbBytes msg s).cnt = BitVec.ofNat 64 (msg.length / 64) := by simp [absorbBytes_cnt, hoff, hcnt]
  have final (u : State) : (finalize u).h = outputTransform (absorbBytes (pad u.off.val u.cnt) u).h := rfl
  rw [final, off, cnt, ← absorbBytes_append, absorbBytes_h, tail, hh, List.nil_append, hashOf]

/-! HASH (R80). -/

theorem completes_init (s : State) : Completes [.command .init] s (seed s) := completes_command rfl fun _ => rfl

theorem completes_final {s : State} (hfin : s.fin = false) : Completes [.command .final] s (finalize s) :=
  completes_command rfl fun rest =>
    (unlessFinal_of_open (withPending rest s) finalize hfin).trans
      (congrArg Host.Outcome.next (finalize_withPending rest s))

/-- Settles O60: INIT, the absorption of the message, FINAL and the four reads complete one after the other, and what is
read is the digest that FINAL left. -/
theorem hashExpansionReturnsTheDigest : Obligations.HashExpansionReturnsTheDigest := by
  unfold Obligations.HashExpansionReturnsTheDigest
  intro msg s hp
  obtain ⟨p, absorbs, program⟩ := hashProgram_eq msg
  obtain ⟨m, absorbed⟩ := absorbs (seed s) rfl
  have final := completes_final (s := absorbBytes msg (withM m (seed s))) (by simp)
  have complete := (completes_init s).cons (absorbed.append (final.cons (completes_reads [4, 5, 6, 7] _)))
  have digest := trunc_finalize_absorbBytes msg (s := withM m (seed s)) rfl rfl rfl
  have kept : (finalize (absorbBytes msg (withM m (seed s)))).replies = s.replies := by simp
  rw [program] at hp ⊢
  have ended := complete.run_eq (hp.trans (List.append_nil _).symm)
  exact ⟨_, _, _, _, _, ended, rfl, congrArg (· ++ _) kept, digest, rfl⟩

end Sys2Proof.Machine

/-! SUPPORT. The permutations P and Q (40_permutation.md): the field product is bilinear, every step of a round is said
once by its matrix entries, each of them is a bijection, and the fused tables are the columns of the MixBytes matrix
times the S-box. -/

namespace Sys2Proof.Machine

/-! The field product (R108). -/

/-- Doubling is a shift and, for a byte with its top bit set, the ⊕ with the low byte of the modulus. -/
theorem gfDouble_eq : ∀ a : Byte, gfDouble a = a <<< 1 ^^^ if a.getLsbD 7 then 0x1B else 0 := by
  decide +kernel

theorem gfDouble_xor (a b : Byte) : gfDouble (a ^^^ b) = gfDouble a ^^^ gfDouble b := by
  have mask : ∀ x y : Bool,
      (if (x ^^ y) then (0x1B : Byte) else 0) = (if x then 0x1B else 0) ^^^ if y then 0x1B else 0 := by decide
  simp only [gfDouble_eq, BitVec.shiftLeft_xor_distrib, BitVec.getLsbD_xor, mask]
  ac_rfl

theorem gmulLoop_xor_left (k : Nat) (p q a b c : Byte) :
    gmulLoop k (p ^^^ q) (a ^^^ b) c = gmulLoop k p a c ^^^ gmulLoop k q b c := by
  induction k generalizing p q a b c with
  | zero => rfl
  | succ k ih =>
    simp only [gmulLoop, gfDouble_xor, ← ih]
    cases c.getLsbD 0
    · rfl
    · simp only [if_true]
      congr 1
      ac_rfl

theorem gmulLoop_xor_right (k : Nat) (p q a b c : Byte) :
    gmulLoop k (p ^^^ q) a (b ^^^ c) = gmulLoop k p a b ^^^ gmulLoop k q a c := by
  induction k generalizing p q a b c with
  | zero => rfl
  | succ k ih =>
    simp only [gmulLoop, BitVec.ushiftRight_xor_distrib, BitVec.getLsbD_xor, ← ih]
    congr 1
    cases b.getLsbD 0 <;> cases c.getLsbD 0 <;> simp [BitVec.xor_assoc]
    ac_rfl

theorem gmul_xor_left (a b c : Byte) : gmul (a ^^^ b) c = gmul a c ^^^ gmul b c := gmulLoop_xor_left 8 0 0 a b c

theorem gmul_xor_right (a b c : Byte) : gmul a (b ^^^ c) = gmul a b ^^^ gmul a c := gmulLoop_xor_right 8 0 0 a b c

theorem gmul_one (a : Byte) : gmul a 1 = a := by
  simp [gmul, gmulLoop]

theorem one_gmul : ∀ a : Byte, gmul 1 a = a := by
  decide +kernel

/-- Settles O50: the loop of the product carries ⊕ in its accumulator along with ⊕ in either operand. -/
theorem fieldProductIsBilinear : Obligations.FieldProductIsBilinear := by
  unfold Obligations.FieldProductIsBilinear
  exact fun a b c => ⟨gmul_xor_left a b c, gmul_xor_right a b c, gmul_one a, one_gmul a⟩

/-! The S-box (R106). -/

theorem sbox_eq_sboxAlgebraic : ∀ x : Byte, sbox x = sboxAlgebraic x := by
  decide +kernel

/-- The inverse of the affine map of R106. -/
def affineInverse (y : Byte) : Byte := y.rotateLeft 1 ^^^ y.rotateLeft 3 ^^^ y.rotateLeft 6 ^^^ 0x05

theorem affineInverse_affine : ∀ b : Byte,
    affineInverse (b ^^^ b.rotateLeft 1 ^^^ b.rotateLeft 2 ^^^ b.rotateLeft 3 ^^^ b.rotateLeft 4 ^^^ 0x63) = b := by
  decide +kernel

/-- The table gives the field inverse without a product, so that facts about the inverse can be read off the table. -/
theorem gfInverse_eq_affineInverse_sbox (x : Byte) : gfInverse x = affineInverse (sbox x) := by
  rw [sbox_eq_sboxAlgebraic]
  exact (affineInverse_affine (gfInverse x)).symm

theorem gmul_gfInverse {x : Byte} : x ≠ 0 → gmul x (gfInverse x) = 1 := by
  rw [gfInverse_eq_affineInverse_sbox]
  revert x
  decide +kernel

@[simp] theorem gfInverse_gfInverse (x : Byte) : gfInverse (gfInverse x) = x := by
  simp only [gfInverse_eq_affineInverse_sbox]
  revert x
  decide +kernel

theorem gfInverse_zero : gfInverse 0 = 0 := by
  rw [gfInverse_eq_affineInverse_sbox]
  decide

/-- Undoing the affine map and then the field inverse undoes the S-box. -/
theorem sbox_bijective : Function.Bijective sbox := by
  have undo : Function.LeftInverse (fun y => gfInverse (affineInverse y)) sbox := fun x => by
    change gfInverse (affineInverse (sbox x)) = x
    rw [← gfInverse_eq_affineInverse_sbox, gfInverse_gfInverse]
  exact undo.injective.bijective_of_finite

/-- Settles O49: the table is checked entry by entry, and the inverse and the bijection are read off it. -/
theorem sboxIsTheAlgebraicBijection : Obligations.SboxIsTheAlgebraicBijection := by
  unfold Obligations.SboxIsTheAlgebraicBijection
  exact ⟨sbox_eq_sboxAlgebraic, fun x => gmul_gfInverse, gfInverse_zero, sbox_bijective⟩

/-! The steps of a round by their matrix entries (R103 to R109). -/

/-- Two 512-bit values with the same matrix are equal. -/
theorem entry_ext {A B : Wide} (h : ∀ i j, entry A i j = entry B i j) : A = B :=
  wide_ext fun j => word_ext fun i => h i j

@[simp] theorem entry_ofFn_wordOf (a : Fin 8 → Fin 8 → Byte) (i j : Fin 8) :
    entry (Vector.ofFn fun j => wordOf fun i => a i j) i j = a i j := by
  simp [entry]

@[simp] theorem addRoundConstant_getElem (v : Variant) (r : Nat) (X : Wide) (j : Fin 8) :
    (addRoundConstant v r X)[j] = X[j] ^^^ roundConstant v r j := by
  simp [addRoundConstant]

@[simp] theorem entry_addRoundConstant (v : Variant) (r : Nat) (X : Wide) (i j : Fin 8) :
    entry (addRoundConstant v r X) i j = entry X i j ^^^ byteOf (roundConstant v r j) i := by
  simp only [entry, addRoundConstant_getElem, byteOf_xor]

@[simp] theorem entry_subBytes (X : Wide) (i j : Fin 8) : entry (subBytes X) i j = sbox (entry X i j) :=
  entry_ofFn_wordOf (fun i j => sbox (entry X i j)) i j

@[simp] theorem entry_shiftBytes (v : Variant) (X : Wide) (i d : Fin 8) :
    entry (shiftBytes v X) i d = entry X i (d + (sigma v)[i]) :=
  entry_ofFn_wordOf (fun i d => entry X i (d + (sigma v)[i])) i d

theorem byteOf_mixColumn (w : Word) (i : Fin 8) :
    byteOf (mixColumn w) i = xorSum fun k => gmul (mixMatrix i k) (byteOf w k) := byteOf_wordOf _ i

@[simp] theorem entry_mixBytes (X : Wide) (i j : Fin 8) :
    entry (mixBytes X) i j = xorSum fun k => gmul (mixMatrix i k) (entry X k j) :=
  entry_ofFn_wordOf (fun i j => xorSum fun k => gmul (mixMatrix i k) (entry X k j)) i j

/-! AddRoundConstant (R103, R104). -/

/-- The word that holds the byte `c` in row `p` and zero in the others. -/
theorem byteOf_shiftLeft_setWidth (c : Byte) (p i : Fin 8) :
    byteOf (c.setWidth 64 <<< (56 - 8 * p.val)) i = if i = p then c else 0 := by
  apply BitVec.eq_of_getLsbD_eq
  intro k hk
  rw [byteOf_getLsbD, BitVec.getLsbD_shiftLeft, BitVec.getLsbD_setWidth]
  by_cases same : i = p
  · subst same
    have inside : 56 - 8 * i.val + k < 64 := by omega
    simp [hk, inside, Nat.lt_trans hk]
  · rw [if_neg same]
    rcases Nat.lt_or_gt_of_ne (Fin.val_ne_of_ne same) with above | below
    · have beyond : 8 ≤ 56 - 8 * i.val + k - (56 - 8 * p.val) := by omega
      simp [BitVec.getLsbD_of_ge c _ beyond]
    · have short : 56 - 8 * i.val + k < 56 - 8 * p.val := by omega
      simp [short]

theorem byteOf_roundConstant_P (r : Nat) (i j : Fin 8) :
    byteOf (roundConstant .P r j) i = if i = 0 then columnRound r j else 0 :=
  byteOf_shiftLeft_setWidth (columnRound r j) 0 i

theorem byteOf_roundConstant_Q (r : Nat) (i j : Fin 8) :
    byteOf (roundConstant .Q r j) i = 0xFF ^^^ if i = 7 then columnRound r j else 0 := by
  have ones : byteOf 0xFFFFFFFFFFFFFFFF#64 i = 0xFF := by revert i; decide
  have placed : byteOf ((columnRound r j).setWidth 64) i = if i = 7 then columnRound r j else 0 := by
    rw [← BitVec.shiftLeft_zero ((columnRound r j).setWidth 64)]
    exact byteOf_shiftLeft_setWidth (columnRound r j) 7 i
  rw [roundConstant, byteOf_xor, ones, placed]

theorem columnRound_eq (r : Nat) (j : Fin 8) :
    columnRound r j = BitVec.ofNat 8 (j.val * 0x10) ^^^ BitVec.ofNat 8 r := by
  have shifted : BitVec.ofNat 8 j.val <<< 4 = BitVec.ofNat 8 (j.val * 0x10) := by revert j; decide
  rw [columnRound, shifted]

/-- In the ten rounds the column and round value fits in its byte. -/
theorem setWidth_columnRound {r : Nat} (hr : r ≤ 9) (j : Fin 8) :
    (columnRound r j).setWidth 64 = (BitVec.ofNat 64 j.val <<< 4) ^^^ BitVec.ofNat 64 r := by
  have rounds : ∀ (r : Fin 10) (j : Fin 8),
      (columnRound r.val j).setWidth 64 = (BitVec.ofNat 64 j.val <<< 4) ^^^ BitVec.ofNat 64 r.val := by decide
  exact rounds ⟨r, by omega⟩ j

/-- Settles O45: the constant is the column and round value standing in row 0. -/
theorem roundConstantOfP : Obligations.RoundConstantOfP := by
  unfold Obligations.RoundConstantOfP
  refine fun r X i j hr => ⟨?word, ?matrix⟩
  case word => rw [addRoundConstant_getElem, roundConstant, setWidth_columnRound hr]
  case matrix =>
    rw [entry_addRoundConstant, byteOf_roundConstant_P, ← columnRound_eq]
    split
    · rfl
    · exact BitVec.xor_zero

/-- Settles O46: the constant is the column and round value standing in row 7 of a word of ones. -/
theorem roundConstantOfQ : Obligations.RoundConstantOfQ := by
  unfold Obligations.RoundConstantOfQ
  refine fun r X i j hr => ⟨?word, ?matrix⟩
  case word => rw [addRoundConstant_getElem, roundConstant, setWidth_columnRound hr]
  case matrix =>
    rw [entry_addRoundConstant, byteOf_roundConstant_Q, BitVec.xor_assoc 0xFF, ← columnRound_eq]
    split
    · rfl
    · rfl

/-! SubBytes and ShiftBytes (R102, R105, R107). -/

theorem sigma_injective (v : Variant) : Function.Injective fun k : Fin 8 => (sigma v)[k] := by
  unfold Function.Injective
  cases v <;> decide

/-- Settles O47: the entries are those of `entry_subBytes` and `entry_shiftBytes`, and turning by `d` keeps the eight
shifts apart. -/
theorem subBytesAndShiftBytesEntries : Obligations.SubBytesAndShiftBytesEntries := by
  unfold Obligations.SubBytesAndShiftBytesEntries
  refine ⟨rfl, rfl, fun v X i d => ⟨entry_subBytes X i d, entry_shiftBytes v X i d, fun k l same => ?_⟩⟩
  have columns : d + (sigma v)[k] = d + (sigma v)[l] := Fin.ext same
  exact sigma_injective v (add_left_cancel columns)

/-- Settles O48: both sides have the S-box image of the same entry. -/
theorem subBytesCommutesWithShiftBytes : Obligations.SubBytesCommutesWithShiftBytes := by
  unfold Obligations.SubBytesCommutesWithShiftBytes
  exact fun v X => entry_ext fun i j => by simp only [entry_shiftBytes, entry_subBytes]

/-! MixBytes (R109). -/

/-- The matrix is circulant: moving down `l` rows is moving right `l` columns. -/
theorem mixMatrix_sub (i k l : Fin 8) : mixMatrix (i - l) k = mixMatrix i (k + l) := by
  simp only [mixMatrix, sub_sub_eq_add_sub]

theorem xorSum_xor (f g : Fin 8 → Byte) : (xorSum fun k => f k ^^^ g k) = xorSum f ^^^ xorSum g := by
  simp only [xorSum]
  ac_rfl

theorem xorSum_gmul (f : Fin 8 → Byte) (c : Byte) : (xorSum fun k => gmul (f k) c) = gmul (xorSum f) c := by
  simp only [xorSum, gmul_xor_left]

theorem xorSum_mixMatrix : ∀ i : Fin 8, xorSum (mixMatrix i) = 0x03 := by
  decide

/-- Settles O51: a uniform column takes c out of each row's sum, which is then the ⊕ of the row. -/
theorem mixBytesOfAUniformColumn : Obligations.MixBytesOfAUniformColumn := by
  unfold Obligations.MixBytesOfAUniformColumn
  refine ⟨fun i k => ?circulant, xorSum_mixMatrix, fun c i => ?uniform⟩
  case circulant => rw [← mixMatrix_sub, add_sub_cancel_right]
  case uniform => simp only [byteOf_mixColumn, byteOf_wordOf, xorSum_gmul, xorSum_mixMatrix]

/-- The product of the circulant matrix with the given first row and one column. -/
def circulantColumn (row : Vector Byte 8) (w : Word) : Word :=
  wordOf fun i => xorSum fun k => gmul row[k - i] (byteOf w k)

theorem mixColumn_eq_circulantColumn : mixColumn = circulantColumn mixRow := rfl

theorem circulantColumn_xor (row : Vector Byte 8) (v w : Word) :
    circulantColumn row (v ^^^ w) = circulantColumn row v ^^^ circulantColumn row w :=
  word_ext fun i => by simp [circulantColumn, gmul_xor_right, xorSum_xor]

/-- The first row of the inverse of the MixBytes matrix, which is circulant as well. -/
def unmixRow : Vector Byte 8 := #v[0x13, 0x5A, 0x54, 0x72, 0x50, 0xDF, 0x45, 0x53]

/-- Both maps are linear, so the 64 words of one bit decide that one undoes the other. -/
theorem circulantColumn_unmixRow_mixColumn (w : Word) : circulantColumn unmixRow (mixColumn w) = w := by
  rw [mixColumn_eq_circulantColumn]
  refine xor_linear_ext (fun w => circulantColumn unmixRow (circulantColumn mixRow w)) id
    (fun a b => by simp only [circulantColumn_xor]) (fun a b => rfl) ?_ w
  decide +kernel

theorem mixColumn_bijective : Function.Bijective mixColumn :=
  (Function.LeftInverse.injective circulantColumn_unmixRow_mixColumn).bijective_of_finite

/-! The rounds are bijections (R112). -/

theorem ofFn_columns_bijective {f : Fin 8 → Word → Word} (hf : ∀ j, Function.Bijective (f j)) :
    Function.Bijective fun X : Wide => (Vector.ofFn fun j : Fin 8 => f j X[j] : Wide) := by
  constructor
  · intro X Y same
    refine wide_ext fun j => (hf j).injective ?_
    simpa using congrArg (fun Z : Wide => Z[j]) same
  · intro Y
    choose X hX using fun j : Fin 8 => (hf j).surjective Y[j]
    exact ⟨Vector.ofFn X, wide_ext fun j => by simp [hX]⟩

theorem wordOf_rows_bijective {f : Byte → Byte} (hf : Function.Bijective f) :
    Function.Bijective fun w : Word => wordOf fun i => f (byteOf w i) := by
  constructor
  · intro v w same
    refine word_ext fun i => hf.injective ?_
    simpa using congrArg (byteOf · i) same
  · intro w
    choose b hb using fun i => hf.surjective (byteOf w i)
    exact ⟨wordOf b, by simp [hb]⟩

theorem addRoundConstant_bijective (v : Variant) (r : Nat) : Function.Bijective (addRoundConstant v r) := by
  have column (j : Fin 8) : Function.Involutive fun w : Word => w ^^^ roundConstant v r j := fun w => by
    simp only [BitVec.xor_assoc, BitVec.xor_self, BitVec.xor_zero]
  exact ofFn_columns_bijective fun j => (column j).bijective

theorem subBytes_bijective : Function.Bijective subBytes :=
  ofFn_columns_bijective fun _ => wordOf_rows_bijective sbox_bijective

theorem mixBytes_bijective : Function.Bijective mixBytes := ofFn_columns_bijective fun _ => mixColumn_bijective

/-- ShiftBytes turns row `i` left; turning it right by as much finds the value it came from. -/
theorem shiftBytes_bijective (v : Variant) : Function.Bijective (shiftBytes v) := by
  constructor
  · intro X Y same
    refine entry_ext fun i j => ?_
    have turned := congrArg (entry · i (j - (sigma v)[i])) same
    simpa only [entry_shiftBytes, sub_add_cancel] using turned
  · intro Y
    refine ⟨Vector.ofFn fun j : Fin 8 => wordOf fun i => entry Y i (j - (sigma v)[i]), entry_ext fun i j => ?_⟩
    simp only [entry_shiftBytes, entry_ofFn_wordOf, add_sub_cancel_right]

theorem permRound_bijective (v : Variant) (r : Nat) : Function.Bijective (permRound v r) :=
  mixBytes_bijective.comp ((shiftBytes_bijective v).comp (subBytes_bijective.comp (addRoundConstant_bijective v r)))

theorem foldl_permRound_bijective (v : Variant) (rounds : List Nat) :
    Function.Bijective fun A => rounds.foldl (fun X r => permRound v r X) A := by
  induction rounds with
  | nil => exact Function.bijective_id
  | cons r rounds ih => exact ih.comp (permRound_bijective v r)

/-- Settles O54: each of the four steps of a round has an inverse. -/
theorem permutationsAreBijections : Obligations.PermutationsAreBijections := by
  unfold Obligations.PermutationsAreBijections
  exact fun v => foldl_permRound_bijective v (List.range Config.rounds)

/-! The fused tables (R110, R113). -/

theorem rotr64_eq_rotateRight (w : Word) {n : Nat} (hn : n < 64) : rotr64 w n = w.rotateRight n := by
  by_cases zero : n = 0
  · subst zero
    simp [rotr64, BitVec.rotateRight_def]
  · rw [rotr64, if_neg zero, BitVec.rotateRight_def, Nat.mod_eq_of_lt hn]

/-- Turning a column word right by `8n` bits moves its rows down by `n`. -/
theorem byteOf_rotr64 (w : Word) (n i : Fin 8) : byteOf (rotr64 w (8 * n.val)) i = byteOf w (i - n) := by
  have small : 8 * n.val < 64 := by omega
  apply BitVec.eq_of_getLsbD_eq
  intro k hk
  rw [rotr64_eq_rotateRight w small, byteOf_getLsbD, byteOf_getLsbD, BitVec.getLsbD_rotateRight,
    Nat.mod_eq_of_lt small, Fin.val_sub, Bool.cond_decide]
  split
  · congr 2
    omega
  · have inside : 56 - 8 * i.val + k < 64 := by omega
    simp only [inside, decide_true, Bool.true_and]
    congr 2
    omega

/-- T0 is column 0 of the matrix times the S-box image. -/
theorem byteOf_t0 (x : Byte) (i : Fin 8) : byteOf (t0 x) i = gmul (mixMatrix i 0) (sbox x) := by
  have column : ∀ i : Fin 8,
      (#v[0x02, 0x07, 0x05, 0x03, 0x05, 0x04, 0x03, 0x02] : Vector Byte 8)[i] = mixMatrix i 0 := by decide
  rw [t0, byteOf_wordOf, column]

/-- Column `k` is column 0 moved down `k` rows. -/
theorem byteOf_rotr64_t0 (x : Byte) (k i : Fin 8) :
    byteOf (rotr64 (t0 x) (8 * k.val)) i = gmul (mixMatrix i k) (sbox x) := by
  rw [byteOf_rotr64, byteOf_t0, mixMatrix_sub, zero_add]

theorem byteOf_rotr64_t4 (x : Byte) (k i : Fin 8) :
    byteOf (rotr64 (t4 x) (8 * k.val)) i = gmul (mixMatrix i (4 + k)) (sbox x) := by
  rw [byteOf_rotr64, t4, ← mixMatrix_sub]
  exact byteOf_rotr64_t0 x 4 (i - k)

/-- The eight lookups of a fused column are the eight terms of the matrix product. -/
theorem byteOf_fusedColumn (v : Variant) (X : Wide) (d i : Fin 8) :
    byteOf (fusedColumn v X d) i = xorSum fun k => gmul (mixMatrix i k) (sbox (shiftedByte v X d k)) := by
  have low (k : Fin 8) := byteOf_rotr64_t0 (shiftedByte v X d k) k i
  have high (k : Fin 8) := byteOf_rotr64_t4 (shiftedByte v X d (4 + k)) k i
  simp only [fusedColumn, byteOf_xor, xorSum]
  exact congr($(low 0) ^^^ $(low 1) ^^^ $(low 2) ^^^ $(low 3) ^^^ $(high 0) ^^^ $(high 1) ^^^ $(high 2) ^^^ $(high 3))

theorem mixBytes_shiftBytes_subBytes (v : Variant) (X : Wide) :
    mixBytes (shiftBytes v (subBytes X)) = fusedStep v X := by
  refine entry_ext fun i d => ?_
  have fused : entry (fusedStep v X) i d = byteOf (fusedColumn v X d) i := by simp [entry, fusedStep]
  rw [fused, byteOf_fusedColumn]
  simp only [entry_mixBytes, entry_shiftBytes, entry_subBytes]
  rfl

/-- Settles O52: the steps agree, so the rounds do, and the ten of them. -/
theorem fusedTablesGiveTheRounds : Obligations.FusedTablesGiveTheRounds := by
  unfold Obligations.FusedTablesGiveTheRounds
  refine ⟨mixBytes_shiftBytes_subBytes, fun v A => ?_⟩
  have rounds : permRound v = fusedRound v := funext₂ fun r X => mixBytes_shiftBytes_subBytes v _
  rw [perm, rounds, fusedPerm]

/-- Settles O53, entry by entry: the table is a literal. -/
theorem listedT0IsTheDefinedT0 : Obligations.ListedT0IsTheDefinedT0 := by
  unfold Obligations.ListedT0IsTheDefinedT0
  decide +kernel

/-! The ten rounds and the commands (R101, R120, R121). -/

/-- Settles O44: the list of rounds is 0 to 9. -/
theorem permutationIsTenRounds : Obligations.PermutationIsTenRounds := by
  unfold Obligations.PermutationIsTenRounds
  have rounds : List.range Config.rounds = [0, 1, 2, 3, 4, 5, 6, 7, 8, 9] := by decide
  intro v A
  simp only [perm, rounds, List.foldl_cons, List.foldl_nil]

/-- Settles O23: the meaning of PERMP does not look at FIN or any other field. -/
theorem permpPermutesM : Obligations.PermpPermutesM := by
  unfold Obligations.PermpPermutesM
  exact fun s => rfl

/-- Settles O24: the meaning of PERMQ does not look at FIN or any other field. -/
theorem permqPermutesM : Obligations.PermqPermutesM := by
  unfold Obligations.PermqPermutesM
  exact fun s => rfl

end Sys2Proof.Machine

/-! SUPPORT. The command COMPRESS (41_compression.md R140, R142): an accepted one puts CF(H, M) in H, and the words of
CF are those of its definition. -/

namespace Sys2Proof.Machine

/-- COMPRESS completes while FIN = 0, and only H changes, to CF(H, M). -/
theorem exec_compress_of_open {s : State} (fin : s.fin = false) :
    exec .compress s = .next { s with h := cf s.h s.m } := by
  rw [exec_compress, unlessFinal_of_open s _ fin]

/-- Settles O25: H becomes CF(H, M), whose words `cf_getElem` gives, and x is the input of its π_P. -/
theorem compressWritesOnlyH : Obligations.CompressWritesOnlyH := by
  unfold Obligations.CompressWritesOnlyH
  intro s fin
  refine ⟨xorWide s.h s.m, cf s.h s.m, exec_compress_of_open fin, fun j => ?_, fun j => ?_⟩
  · exact xorWide_getElem s.h s.m j j.isLt
  · exact cf_getElem s.h s.m j j.isLt

end Sys2Proof.Machine

/-! SUPPORT. The absorber and the command ABSORB (42_absorber.md R160 to R163): the tail a string leaves, a string that
completes one block, and ABSORB n as the absorption of its operand; the statements about commands, split input and
whole sessions follow from these and from `absorbBytes_h`, `absorbBytes_cnt` and `absorbBytes_off`. -/

namespace Sys2Proof.Machine

/-! One AbsorbByte (R160). -/

/-- Settles O55: the two cases of AbsorbByte, with OFF = 63 written out in the second. -/
theorem absorbByteStep : Obligations.AbsorbByteStep := by
  unfold Obligations.AbsorbByteStep
  refine fun s x => ⟨absorbByte_of_room s x, fun last => ?_⟩
  have full := absorbByte_of_full s x (by omega)
  simpa only [last] using full

/-! Strings (R161). -/

/-- The byte that fills the buffer leaves no tail. -/
theorem tailBytes_absorbByte_of_full (s : State) (x : Byte) (full : s.off.val + 1 = 64) :
    tailBytes (absorbByte s x) = [] := by
  rw [absorbByte_of_full s x full]
  rfl

/-- The tail after a string is what the tail and the string leave over after their whole blocks. -/
theorem tailBytes_absorbBytes (bs : List Byte) (s : State) :
    tailBytes (absorbBytes bs s) = leftover (tailBytes s ++ bs) := by
  induction bs generalizing s with
  | nil => rw [absorbBytes_nil, List.append_nil, leftover_of_short _ (by simp)]
  | cons x bs ih =>
    rw [absorbBytes_cons, ih, List.append_cons (tailBytes s)]
    by_cases room : s.off.val + 1 < 64
    · rw [tailBytes_absorbByte s x room]
    · have full : s.off.val + 1 = 64 := by omega
      have block : (tailBytes s ++ [x]).length = 64 := by simp [full]
      rw [tailBytes_absorbByte_of_full s x full, List.nil_append,
        leftover_of_long (tailBytes s ++ [x] ++ bs) (by rw [List.length_append]; omega), List.drop_left' block]

/-- Settles O56, field by field. -/
theorem absorbingAStringChainsItsBlocks : Obligations.AbsorbingAStringChainsItsBlocks := by
  unfold Obligations.AbsorbingAStringChainsItsBlocks
  intro bs s all
  have length : all.length = s.off.val + bs.length := by simp [all]
  rw [length]
  exact ⟨absorbBytes_h bs s, absorbBytes_cnt bs s, absorbBytes_off bs s, tailBytes_absorbBytes bs s⟩

/-- A string that completes the block in the buffer and no second one is a string that fills the buffer exactly,
followed by one that leaves room: one compression, and above the new tail BUF still holds the compressed block. -/
theorem absorbBytes_of_one_block (bs : List Byte) (s : State) (fills : 64 ≤ s.off.val + bs.length)
    (once : s.off.val + bs.length < 128) :
    let all := tailBytes s ++ bs
    (absorbBytes bs s).h = cf s.h (blockOf all) ∧ (absorbBytes bs s).cnt = s.cnt + 1 ∧
    (absorbBytes bs s).off.val = s.off.val + bs.length - 64 ∧ tailBytes (absorbBytes bs s) = all.drop 64 ∧
    (absorbBytes bs s).buf.toList.drop (absorbBytes bs s).off.val =
      (all.take 64).drop (absorbBytes bs s).off.val := by
  intro all
  have hoff := s.off.isLt
  obtain ⟨first, rest, rfl, exact⟩ : ∃ first rest, bs = first ++ rest ∧ s.off.val + first.length = 64 :=
    ⟨bs.take (64 - s.off.val), bs.drop (64 - s.off.val), (List.take_append_drop _ _).symm, by simp; omega⟩
  have assoc : all = (tailBytes s ++ first) ++ rest := (List.append_assoc _ _ _).symm
  have block : (tailBytes s ++ first).length = 64 := by simp [exact]
  have ne : first ≠ [] := List.ne_nil_of_length_pos (by omega)
  rw [List.length_append] at once ⊢
  obtain ⟨h₁, cnt₁, off₁, buf₁⟩ := absorbBytes_of_exact first s ne exact
  have zero : (absorbBytes first s).off.val = 0 := congrArg Fin.val off₁
  have emptied : tailBytes (absorbBytes first s) = [] := by rw [tailBytes, zero, List.take_zero]
  obtain ⟨h₂, cnt₂, off₂, tail₂, kept⟩ := absorbBytes_of_room rest (absorbBytes first s) (by omega)
  rw [← absorbBytes_append] at h₂ cnt₂ off₂ tail₂ kept
  rw [assoc, blockOf_append _ _ block.ge, List.drop_left' block, List.take_left' block]
  refine ⟨h₂.trans h₁, cnt₂.trans cnt₁, by omega, ?_, ?_⟩
  · rw [tail₂, emptied, List.nil_append]
  · rw [← buf₁]
    apply List.ext_getElem
    · simp
    · intro k hk hk'
      simp only [List.length_drop, Vector.length_toList] at hk
      rw [List.getElem_drop, List.getElem_drop]
      exact kept _ (by omega) (.inr (by omega))

/-! ABSORB n (R162). -/

/-- ABSORB of a legal LEN completes while FIN = 0, and absorbs the first LEN bytes of ser(M). -/
theorem exec_absorb_of_open {n : BitVec 7} {s : State} (legal : n.toNat ≤ 64) (fin : s.fin = false) :
    exec (.absorb n) s = .next (absorbBytes ((ser s.m).toList.take n.toNat) s) := by
  rw [exec_absorb_of_legal legal, unlessFinal_of_open s _ fin, absorbOperand_eq]

/-- Settles O26: the operand has n bytes, so below 64 it leaves room in the buffer, and else it completes one block; the
other fields are left by every absorption. -/
theorem absorbFeedsTheBuffer : Obligations.AbsorbFeedsTheBuffer := by
  unfold Obligations.AbsorbFeedsTheBuffer
  intro n s fin legal
  have length : ((ser s.m).toList.take n.toNat).length = n.toNat := by simp [legal]
  have room := absorbBytes_of_room ((ser s.m).toList.take n.toNat) s
  have block := absorbBytes_of_one_block ((ser s.m).toList.take n.toNat) s
  rw [length] at room block
  refine ⟨_, exec_absorb_of_open legal fin, room, fun fills => block fills (by omega), ?_⟩
  exact ⟨absorbBytes_m _ s, absorbBytes_fin _ s, absorbBytes_err _ s, absorbBytes_ecause _ s, absorbBytes_pending _ s,
    absorbBytes_replies _ s, absorbBytes_draws _ s⟩

/-- Settles O27: the operand is the whole of ser(M), which fills the empty buffer exactly, and the block it makes is
M. -/
theorem absorbWholeBlockCompressesM : Obligations.AbsorbWholeBlockCompressesM := by
  unfold Obligations.AbsorbWholeBlockCompressesM
  intro s fin empty
  have whole : (ser s.m).toList.take (64 : BitVec 7).toNat = (ser s.m).toList := List.take_of_length_le (by simp)
  have absorbed := exec_absorb_of_open (n := 64) (by decide) fin
  rw [whole] at absorbed
  have tail : tailBytes s = [] := by simp [tailBytes, empty]
  obtain ⟨h, cnt, off, -⟩ := absorbBytes_of_exact (ser s.m).toList s (by simp) (by simp [empty])
  rw [tail, List.nil_append, blockOf_toList, deser_ser] at h
  refine ⟨_, absorbed, h, cnt, off, absorbBytes_m _ s, ?_⟩
  rw [h, exec_compress_of_open fin]

/-! Split input (R161). -/

/-- Settles O57: the operands of the two ABSORBs make up the operand of the one, and the reload of M between them does
not touch the absorber. -/
theorem splitAbsorbsAgree : Obligations.SplitAbsorbsAgree := by
  unfold Obligations.SplitAbsorbsAgree
  intro a b c s t u w m' fin sum legal reloaded one first second
  rw [exec_absorb_of_open legal fin] at one
  rw [exec_absorb_of_open (by omega) fin] at first
  cases one
  cases first
  change exec (.absorb b) (withM m' (absorbBytes ((ser s.m).toList.take a.toNat) s)) = _ at second
  rw [exec_absorb_of_open (by omega) (by simpa using fin), withM_m, reloaded, absorbBytes_withM,
    ← absorbBytes_append, ← List.take_add, ← sum] at second
  cases second
  exact ⟨rfl, rfl, rfl, rfl⟩

/-! Sessions (R163, 70_reset_and_hazards.md R254). -/

/-- Settles O58: FINAL is accepted after the message, and finds the offset and the count that the message's length
gives. -/
theorem sessionComputesTheHash : Obligations.SessionComputesTheHash := by
  unfold Obligations.SessionComputesTheHash
  intro msg s iv cnt off fin
  have accepted : (absorbBytes msg s).fin = false := by simpa using fin
  refine ⟨_, unlessFinal_of_open _ finalize accepted, trunc_finalize_absorbBytes msg iv cnt off, finalize_fin _,
    finalize_off _, ?_⟩
  rw [finalize_cnt, absorbBytes_cnt, absorbBytes_off, cnt, off, BitVec.ofNat_add]
  simp [padBlocks, Config.padThreshold]

end Sys2Proof.Machine

/-! SUPPORT. The command FINAL (43_finalizer.md R180 to R184): the parts of the padding, the digest as the last half of
the serialized H, FINAL as one or two compressions and the output transform, and H as it stays while FIN = 1. -/

namespace Sys2Proof.Machine

/-! H while FIN = 1 (R184). -/

/-- While FIN = 1 the commands that take input are rejected, so what seeds nothing leaves H and FIN. -/
theorem EventEffect.keeps_digest {e : HostEvent} {s t : State} (eff : EventEffect e s t) (fin : s.fin = true)
    (notSeed : ¬ seeds e) : t.h = s.h ∧ t.fin = true := by
  cases eff with
  | reset he => exact absurd (.inl he) notSeed
  | init hc => exact absurd (.inr hc) notSeed
  | compress _ isOpen | absorb _ _ _ isOpen | final _ isOpen => rw [fin] at isOpen; cases isOpen
  | rejected v c => exact ⟨recordError_h c s, (recordError_fin c s).trans fin⟩
  | replied | stored | ignored | nop | permp | permq => exact ⟨rfl, fin⟩

/-- Settles O34: an idle step changes nothing, and the event of any other keeps the digest. -/
theorem digestStaysUntilInitOrReset : Obligations.DigestStaysUntilInitOrReset := by
  unfold Obligations.DigestStaysUntilInitOrReset
  intro s t fin h notSeed
  rcases step_cases h with ⟨-, rfl⟩ | ⟨e, rest, hp, taken⟩
  · exact ⟨rfl, fin⟩
  · exact (effect_of_takeEvent taken).keeps_digest fin (notSeed e (by rw [hp]; rfl))

/-! The padding (R180). -/

/-- BE64 is the eight bytes of the word, from bits 63 to 56 down to bits 7 to 0 (00_scope.md R12). -/
theorem be64_eq (v : Word) : be64 v = [v.extractLsb' 56 8, v.extractLsb' 48 8, v.extractLsb' 40 8, v.extractLsb' 32 8,
    v.extractLsb' 24 8, v.extractLsb' 16 8, v.extractLsb' 8 8, v.extractLsb' 0 8] := rfl

/-- Settles O29: the length is `pad_length`, the parts are those of PAD's definition, and `be64_eq` gives the bytes of
the count field. -/
theorem paddingShape : Obligations.PaddingShape := by
  unfold Obligations.PaddingShape
  intro l cnt short n
  refine ⟨pad_length l cnt short, cnt + BitVec.ofNat 64 n, rfl, ?_⟩
  rw [← be64_eq]
  rfl

/-! The digest (R182). -/

theorem be64_eq_ofFn (v : Word) : be64 v = List.ofFn (byteOf v) := (List.ofFn_eq_map ..).symm

/-- The serialization is the BE64 of the eight words in order (00_scope.md R12): byte 8j + i is row i of word j. -/
theorem ser_toList (A : Wide) : (ser A).toList = (List.ofFn fun j : Fin 8 => be64 A[j]).flatten := by
  have columns := List.ofFn_mul' (m := 8) (n := 8)
    fun k => byteOf A[k.val / 8] ⟨k.val % 8, Nat.mod_lt _ (by decide)⟩
  rw [ser, Vector.toList_ofFn]
  refine columns.trans (congrArg List.flatten (congrArg List.ofFn (funext fun j => ?_)))
  rw [be64_eq_ofFn]
  refine congrArg List.ofFn (funext fun i => ?_)
  have hcol : (8 * j.val + i.val) / 8 = j.val := by omega
  have hrow : (8 * j.val + i.val) % 8 = i.val := by omega
  simp only [hcol, hrow, Fin.getElem_fin, Fin.eta]

/-- Settles O30: the words before the digest take 32 bytes of the serialization. -/
theorem digestIsTheLastHalfOfSer : Obligations.DigestIsTheLastHalfOfSer := by
  unfold Obligations.DigestIsTheLastHalfOfSer
  intro h
  have halves : (ser h).toList = (be64 h[0] ++ be64 h[1] ++ be64 h[2] ++ be64 h[3]) ++ trunc h := by
    simp [ser_toList, trunc]
  refine ⟨?_, by simp [trunc]⟩
  rw [halves, List.drop_left' (by simp)]

/-! FINAL (R181, R183). -/

/-- A string that completes the block in the buffer and one more is a string that fills the buffer exactly, followed by
one of 64 bytes, which fills the emptied buffer again: two compressions, and BUF holds the second block. -/
theorem absorbBytes_of_two_blocks (bs : List Byte) (s : State) (exact : s.off.val + bs.length = 128) :
    let all := tailBytes s ++ bs
    (absorbBytes bs s).h = cf (cf s.h (blockOf all)) (blockOf (all.drop 64)) ∧
    (absorbBytes bs s).buf.toList = all.drop 64 := by
  intro all
  have hoff := s.off.isLt
  obtain ⟨first, rest, rfl, fills⟩ : ∃ first rest, bs = first ++ rest ∧ s.off.val + first.length = 64 :=
    ⟨bs.take (64 - s.off.val), bs.drop (64 - s.off.val), (List.take_append_drop _ _).symm, by simp; omega⟩
  rw [List.length_append] at exact
  have assoc : all = (tailBytes s ++ first) ++ rest := (List.append_assoc _ _ _).symm
  have block : (tailBytes s ++ first).length = 64 := by simp [fills]
  obtain ⟨h₁, -, off₁, -⟩ := absorbBytes_of_exact first s (List.ne_nil_of_length_pos (by omega)) fills
  have emptied : tailBytes (absorbBytes first s) = [] := by simp [tailBytes, off₁]
  obtain ⟨h₂, -, -, buf₂⟩ := absorbBytes_of_exact rest (absorbBytes first s)
    (List.ne_nil_of_length_pos (by omega)) (by simp [off₁]; omega)
  rw [emptied, List.nil_append] at h₂ buf₂
  rw [absorbBytes_append, assoc, blockOf_append _ _ block.ge, List.drop_left' block, h₂, h₁]
  exact ⟨rfl, buf₂⟩

/-- The output transform is applied to what absorbing the padding leaves in H (R181, R183). -/
theorem finalize_h (s : State) : (finalize s).h = outputTransform (absorbBytes (pad s.off.val s.cnt) s).h := rfl

theorem finalize_buf (s : State) : (finalize s).buf = (absorbBytes (pad s.off.val s.cnt) s).buf := rfl

theorem padBlocks_of_lt {l : Nat} (short : l < 56) : padBlocks l = 1 := if_pos short

theorem padBlocks_of_ge {l : Nat} (long : 56 ≤ l) : padBlocks l = 2 := if_neg (Nat.not_lt.mpr long)

/-- FINAL completes while FIN = 0. -/
theorem exec_final_of_open {s : State} (fin : s.fin = false) : exec .final s = .next (finalize s) :=
  unlessFinal_of_open s finalize fin

/-- Settles O28: the padding completes one block behind a tail below 56 bytes and two behind a longer one, and x is what
absorbing it leaves in H. -/
theorem finalPadsAndTransforms : Obligations.FinalPadsAndTransforms := by
  unfold Obligations.FinalPadsAndTransforms
  intro s fin
  have whole := off_add_pad_length s
  refine ⟨finalize s, (absorbBytes (pad s.off.val s.cnt) s).h, exec_final_of_open fin, fun short => ?_,
    fun long => ?_, fun j => ?_, ?_⟩
  · rw [padBlocks_of_lt short] at whole
    obtain ⟨h, -, -, buf⟩ := absorbBytes_of_exact _ s (List.cons_ne_nil _ _) whole
    rw [finalize_cnt, finalize_buf, padBlocks_of_lt short]
    exact ⟨h, rfl, buf⟩
  · rw [padBlocks_of_ge long] at whole
    obtain ⟨h, buf⟩ := absorbBytes_of_two_blocks _ s whole
    rw [finalize_cnt, finalize_buf, padBlocks_of_ge long]
    exact ⟨h, rfl, buf⟩
  · rw [finalize_h]
    exact outputTransform_getElem _ j j.isLt
  · exact ⟨finalize_off s, finalize_fin s, finalize_m s, finalize_err s, finalize_ecause s, finalize_pending s,
      finalize_replies s, finalize_draws s⟩

end Sys2Proof.Machine

/-! SUPPORT. The control commands NOP and INIT (44_control.md R200, R201): neither looks at FIN or ERR, and INIT is the
seeding that a reset also does. -/

namespace Sys2Proof.Machine

theorem exec_nop (s : State) : exec .nop s = .next s := rfl

theorem exec_init (s : State) : exec .init s = .next (seed s) := rfl

/-- Seeding as one update of the whole state, with the words of the IV written out (R23, R34). -/
theorem seed_eq (s : State) :
    seed s = { s with h := #v[0, 0, 0, 0, 0, 0, 0, 0x0000000000000100], cnt := 0, off := 0,
                      fin := false, err := false, ecause := 0 } := rfl

/-- Settles O21: `exec_nop`. -/
theorem nopChangesNothing : Obligations.NopChangesNothing := by
  unfold Obligations.NopChangesNothing
  exact exec_nop

/-- Settles O22: INIT seeds, and `seed_eq` gives the seeded values and leaves M and BUF. -/
theorem initSeedsTheEngine : Obligations.InitSeedsTheEngine := by
  unfold Obligations.InitSeedsTheEngine
  intro s
  rw [exec_init, seed_eq]

end Sys2Proof.Machine

/-! SUPPORT. The rejection of a command word (60_exceptions.md R220 to R224, R229): what recording a cause does, when
each command is rejected, that every modelled event is taken, what keeps a recorded error, and a step of one engine
among several. -/

namespace Sys2Proof.Machine

/-! Recording a cause (R222). -/

theorem recordError_of_clear (c : Cause) {s : State} (clear : s.err = false) :
    recordError c s = { s with err := true, ecause := c.code } := by
  rw [recordError_eq, clear]
  rfl

theorem recordError_of_set (c : Cause) {s : State} (recorded : s.err = true) : recordError c s = s := by
  rw [recordError, if_pos recorded]

/-- Settles O10: the two cases of ERR, with the code read off the cause. -/
theorem firstCauseIsKept : Obligations.FirstCauseIsKept := by
  unfold Obligations.FirstCauseIsKept
  refine fun c s => ⟨fun clear => ?_, recordError_of_set c⟩
  rw [recordError_of_clear c clear]
  cases c <;> rfl

/-! Rejected command words (R220, R223). -/

/-- Settles O6: the step issues the word, which records the cause that `check` gives; taking the event leaves FIN, the
one field that `check` looks at. -/
theorem rejectedWordChangesOnlyErrAndEcause : Obligations.RejectedWordChangesOnlyErrAndEcause := by
  unfold Obligations.RejectedWordChangesOnlyErrAndEcause
  intro s v rest c hp rejected
  have rejected : check v { s with pending := rest } = some c := rejected
  rw [step_commandWrite hp, issue_of_check_some rejected, recordError_eq]

/-- A word that decodes is rejected exactly when FIN = 1 and its opcode is that of a command that takes input. -/
theorem check_of_decode_cmd_opcField {v : Word} {i : Instr} (hd : decode v = .cmd i) (s : State) :
    check v s = if s.fin = true ∧ (opcField v = 0x20 ∨ opcField v = 0x30 ∨ opcField v = 0x40)
      then some .inputAfterFinal else none := by
  obtain ⟨-, -, hop, -⟩ := fields_of_decode_cmd hd
  rw [check_of_decode_cmd hd, hop]

/-- Settles O7: the three answers of the decoder exclude each other, and FIN is looked at under the third alone. -/
theorem checkReportsOneCauseInPriority : Obligations.CheckReportsOneCauseInPriority := by
  unfold Obligations.CheckReportsOneCauseInPriority
  intro v s opc known reserved late
  rcases decode_cases v with ⟨unknown, hd⟩ | ⟨isKnown, bad, hd⟩ | ⟨isKnown, proper, i, hd, -⟩
  · have unknown : ¬ known := unknown
    simp [check_of_decode_illegal hd, unknown]
  · have isKnown : known := isKnown
    have bad : reserved := bad
    simp [check_of_decode_illegal hd, isKnown, bad]
  · have isKnown : known := isKnown
    have proper : ¬ reserved := proper
    by_cases isLate : late
    · have hc : check v s = some .inputAfterFinal := (check_of_decode_cmd_opcField hd s).trans (if_pos isLate)
      simp [hc, isKnown, proper, isLate]
    · have hc : check v s = none := (check_of_decode_cmd_opcField hd s).trans (if_neg isLate)
      simp [hc, isKnown, proper, isLate]

/-! Commands that are rejected after decoding (R221, R256). -/

theorem exec_final (s : State) : exec .final s = unlessFinal s finalize := rfl

/-- The LEN of more than 64 that no word decodes to is looked at before FIN (R223). -/
theorem exec_absorb_of_large {n : BitVec 7} (large : 64 < n.toNat) (s : State) :
    exec (.absorb n) s = .next (recordError .reservedField s) := by
  simp only [exec, execAbsorb, large, if_true, cmdError]

/-- Settles O9: the three commands stand under the check of FIN, ABSORB behind that of LEN. -/
theorem inputAfterFinalIsRejected : Obligations.InputAfterFinalIsRejected := by
  unfold Obligations.InputAfterFinalIsRejected
  refine fun s n => ⟨fun fin => ⟨?compress, ?final, fun legal => ?absorb⟩, fun large => exec_absorb_of_large large s⟩
  case compress => rw [exec_compress, unlessFinal_of_final s _ fin]
  case final => rw [exec_final, unlessFinal_of_final s _ fin]
  case absorb => rw [exec_absorb_of_legal legal, unlessFinal_of_final s _ fin]

/-! Every modelled event is taken (R51, R224). -/

theorem exists_next_of_unlessFinal (s : State) (f : State → State) : ∃ t, unlessFinal s f = .next t := by
  cases fin : s.fin with
  | false => exact ⟨_, unlessFinal_of_open s f fin⟩
  | true => exact ⟨_, unlessFinal_of_final s f fin⟩

/-- Every command completes or is rejected; none stops the machine. -/
theorem exists_next_of_exec (i : Instr) (s : State) : ∃ t, exec i s = .next t := by
  cases i with
  | nop | init | permp | permq => exact ⟨_, rfl⟩
  | compress => rw [exec_compress]; exact exists_next_of_unlessFinal s _
  | absorb n =>
    by_cases large : 64 < n.toNat
    · exact ⟨_, exec_absorb_of_large large s⟩
    · rw [exec_absorb_of_legal (Nat.not_lt.mp large)]
      exact exists_next_of_unlessFinal s _
  | final => rw [exec_final]; exact exists_next_of_unlessFinal s _

theorem exists_next_of_issue (v : Word) (s : State) : ∃ t, issue v s = .next t := by
  cases hd : decode v with
  | illegal c => exact ⟨_, issue_of_check_some (check_of_decode_illegal hd s)⟩
  | cmd i => rw [issue_of_decode_cmd hd]; exact exists_next_of_exec i s

theorem exists_next_of_writeSlot (k : Fin 32) (v : Word) (s : State) : ∃ t, writeSlot k v s = .next t := by
  unfold writeSlot
  cases slotOf k with
  | cmd => exact exists_next_of_issue v s
  | m j => exact ⟨_, rfl⟩
  | status | cnt | h | reserved => exact ⟨_, rfl⟩

theorem exists_next_of_modelledEvent {e : HostEvent} (modelled : modelledEvent e = true) (s : State) :
    ∃ t, takeEvent e s = .next t := by
  cases e with
  | read offset size =>
    obtain ⟨k, hk⟩ := modelledEvent_read_iff.mp modelled
    simp only [takeEvent, hk]
    exact ⟨_, rfl⟩
  | write offset size v =>
    rw [modelledEvent_write] at modelled
    obtain ⟨k, hk⟩ := modelledEvent_read_iff.mp modelled
    simp only [takeEvent, hk]
    exact exists_next_of_writeSlot k v s
  | reset => exact ⟨_, rfl⟩
  | secondHost | resetInsideCommand => cases modelled

/-- Settles O18: taking the event answers a next state, and its effect keeps the events still pending. -/
theorem modelledEventsComplete : Obligations.ModelledEventsComplete := by
  unfold Obligations.ModelledEventsComplete
  intro s e rest hp modelled
  obtain ⟨t, taken⟩ := exists_next_of_modelledEvent modelled { s with pending := rest }
  exact ⟨t, (step_of_pending s e rest hp).trans taken, (effect_of_takeEvent taken).pending_eq⟩

/-! A recorded error stays (R29, R30, R222). -/

/-- While ERR = 1 a further rejection records nothing, so what seeds nothing leaves ERR and ECAUSE. -/
theorem EventEffect.keeps_error {e : HostEvent} {s t : State} (eff : EventEffect e s t) (err : s.err = true)
    (notSeed : ¬ seeds e) : t.err = true ∧ t.ecause = s.ecause := by
  cases eff with
  | reset he => exact absurd (.inl he) notSeed
  | init hc => exact absurd (.inr hc) notSeed
  | rejected v c => rw [recordError_of_set c err]; exact ⟨err, rfl⟩
  | absorb n => exact ⟨(absorbBytes_err _ s).trans err, absorbBytes_ecause _ s⟩
  | final => exact ⟨(finalize_err s).trans err, finalize_ecause s⟩
  | replied | stored | ignored | nop | permp | permq | compress => exact ⟨err, rfl⟩

/-- Settles O38: an idle step changes nothing, and the event of any other keeps the error. -/
theorem errorIsSticky : Obligations.ErrorIsSticky := by
  unfold Obligations.ErrorIsSticky
  intro s t err h notSeed
  rcases step_cases h with ⟨-, rfl⟩ | ⟨e, rest, hp, taken⟩
  · exact ⟨err, rfl⟩
  · exact (effect_of_takeEvent taken).keeps_error err (notSeed e (by rw [hp]; rfl))

/-! Several engines side by side (R229). -/

/-- A step of engine `k` of a board puts the next state of that engine in its place. -/
theorem stepInstance_cases {b b' : Board} {k : Nat} {s : State} (hs : b[k]? = some s)
    (h : stepInstance k b = .next b') : ∃ t, step s = .next t ∧ b' = b.set k t := by
  simp only [stepInstance, hs] at h
  cases hstep : step s with
  | next t => rw [hstep] at h; cases h; exact ⟨t, rfl, rfl⟩
  | fault r => rw [hstep] at h; cases h
  | refused r => rw [hstep] at h; cases h

/-- Settles O42: the new list is the old one with one entry set. -/
theorem instancesShareNothing : Obligations.InstancesShareNothing := by
  unfold Obligations.InstancesShareNothing
  intro b b' k s hs h
  obtain ⟨t, hstep, rfl⟩ := stepInstance_cases hs h
  obtain ⟨inside, -⟩ := List.getElem?_eq_some_iff.mp hs
  exact ⟨⟨t, hstep, List.getElem?_set_self inside⟩, fun j other => List.getElem?_set_ne other.symm⟩

end Sys2Proof.Machine

/-! SUPPORT. The wrap of the block counter (70_reset_and_hazards.md R257): the count field as the last eight bytes of the
padding, and the words it holds when CNT wraps. -/

namespace Sys2Proof.Machine

/-- Behind the stop byte and the zero bytes the padding ends with its count field (R180). -/
theorem pad_drop_eq_countField {l : Nat} (cnt : Word) (short : l < 64) :
    (pad l cnt).drop (64 * padBlocks l - l - 8) = be64 (cnt + BitVec.ofNat 64 (padBlocks l)) := by
  have room : 9 ≤ 64 * padBlocks l - l := by
    unfold padBlocks Config.padThreshold
    split <;> omega
  have start : 64 * padBlocks l - l - 8 = (64 * padBlocks l - l - 9) + 1 := by omega
  rw [pad, start, List.drop_succ_cons, List.drop_left' List.length_replicate]

/-- Settles O31: from the largest count, one further block wraps to 0 and two wrap to 1. `finalize_cnt` and
`pad_drop_eq_countField` carry that to CNT and to the padding. -/
theorem counterWrapsToZero : Obligations.CounterWrapsToZero := by
  unfold Obligations.CounterWrapsToZero
  intro n s fin largest
  have field := pad_drop_eq_countField s.cnt s.off.isLt
  have final := exec_final_of_open fin
  have count := finalize_cnt s
  refine ⟨fun legal fills => ?absorb, fun short => ?short, fun long => ?long⟩
  case absorb =>
    obtain ⟨t, absorbed, -, block, -⟩ := absorbFeedsTheBuffer n s fin legal
    obtain ⟨-, cnt, -⟩ := block fills
    exact ⟨t, absorbed, by rw [cnt, largest]; decide⟩
  case short =>
    have start : 64 * 1 - s.off.val - 8 = 56 - s.off.val := by omega
    rw [padBlocks_of_lt short, largest] at count field
    rw [start] at field
    rw [largest, field]
    exact ⟨⟨_, final, count⟩, by decide⟩
  case long =>
    have start : 64 * 2 - s.off.val - 8 = 120 - s.off.val := by omega
    rw [padBlocks_of_ge long, largest] at count field
    rw [start] at field
    rw [largest, field]
    exact ⟨⟨_, final, count⟩, by decide⟩

end Sys2Proof.Machine
